-- ==== Sys2Proof/Word.lean ====
section
/-! DEFINITION. The types of the machine's values (spec/10_state.md R20, R23; spec/00_scope.md R11). All arithmetic in
scope is unsigned, so bit vectors are read with toNat only. -/

namespace Sys2Proof

/-- A memory byte or a general register (R9: REG_WIDTH 8 bits). -/
abbrev Byte := BitVec 8

/-- A fetched instruction word, and the width of pc, I and a stack entry (R70, R9). -/
abbrev Word := BitVec 16

/-- A general register index, V0 to VF (R23, R75). -/
abbrev Reg := Fin 16

/-- An input latch index (R34). -/
abbrev Key := Fin 16

/-- A display column, 0 to 63 (R35). -/
abbrev Column := Fin 64

/-- A display row, 0 to 31 (R35). -/
abbrev Row := Fin 32

end Sys2Proof
end

