-- ==== Sys2Proof/Syntax.lean ====
section
/-! DEFINITION. The operations a word selects (spec/30_encoding.md R72, R73). -/

namespace Sys2Proof

/-- The result of decoding one word. The eleven UNHANDLED rows of spec/opcode_table.json are one operation of the spec,
UNHANDLED(w) (R73, R97), so they are one constructor that carries the whole word (notes/assumptions/9.md). -/
inductive Instr where
  /-- 00E0 CLS: clear the display (R130). -/
  | cls
  /-- 1NNN JP NNN: jump (R110). -/
  | jp (nnn : BitVec 12)
  /-- 6XNN LD VX, NN: load an immediate byte (R120). -/
  | ld (x : Reg) (nn : Byte)
  /-- 7XNN ADD VX, NN: add an immediate byte, no flag (R121). -/
  | add (x : Reg) (nn : Byte)
  /-- ANNN LD I, NNN: load the index register (R122). -/
  | ldi (nnn : BitVec 12)
  /-- DXYN DRW VX, VY, N: draw an N-row sprite (R134). -/
  | drw (x y : Reg) (n : BitVec 4)
  /-- Every other word: reported and skipped (R97). -/
  | unhandled (w : Word)
  deriving DecidableEq, Repr

end Sys2Proof
end

