-- ==== Sys2Proof/WellFormed.lean ====
section
/-! DEFINITION. Which terms of Instr stand for a word. The operand types already bound every field (R74, R75); what is left
to check is that an UNHANDLED term carries a word of the unhandled space (spec/30_encoding.md R77). -/

namespace Sys2Proof

/-- A word of the unhandled space: a class-0 word other than 0x00E0, or any word of a class that is not 1, 6, 7, A or D
(R77). -/
def inUnhandledSpace (w : Word) : Bool :=
  w != 0x00E0 && !([0x1, 0x6, 0x7, 0xA, 0xD] : List (BitVec 4)).contains (w.extractLsb' 12 4)

/-- The instruction is what some word decodes to. -/
def Instr.wellFormed : Instr → Bool
  | .cls => true
  | .jp _ => true
  | .ld _ _ => true
  | .add _ _ => true
  | .ldi _ => true
  | .drw _ _ _ => true
  | .unhandled w => inUnhandledSpace w

end Sys2Proof
end

