-- ==== Sys2Proof/Decode.lean ====
section
/-! DEFINITION. Fields, decoder and encoder (spec/30_encoding.md R70 to R79). -/

namespace Sys2Proof

/-- B0 || B1: the byte at the lower address is the most significant one (spec/20_memory.md R52). -/
def wordOf (b0 b1 : Byte) : Word := b0 ++ b1

/-- B0 of a word, the byte stored first (R52). -/
def highByte (w : Word) : Byte := w.extractLsb' 8 8

/-- B1 of a word, the byte stored second (R52). -/
def lowByte (w : Word) : Byte := w.extractLsb' 0 8

/-! ### The fields of every word (R71) -/

def classField (w : Word) : BitVec 4 := w.extractLsb' 12 4
def xField (w : Word) : Reg := (w.extractLsb' 8 4).toFin
def yField (w : Word) : Reg := (w.extractLsb' 4 4).toFin
def nField (w : Word) : BitVec 4 := w.extractLsb' 0 4
def nnField (w : Word) : Byte := w.extractLsb' 0 8
def nnnField (w : Word) : BitVec 12 := w.extractLsb' 0 12

/-- decode(w), total on every word and reading nothing but the word (R73). -/
def decode (w : Word) : Instr :=
  if classField w = 0x0 then
    if nnnField w = 0x0E0 then .cls else .unhandled w
  else if classField w = 0x1 then .jp (nnnField w)
  else if classField w = 0x6 then .ld (xField w) (nnField w)
  else if classField w = 0x7 then .add (xField w) (nnField w)
  else if classField w = 0xA then .ldi (nnnField w)
  else if classField w = 0xD then .drw (xField w) (yField w) (nField w)
  else .unhandled w

/-- Why a list of bytes holds no instruction. No word is illegal (R77), so the one reason is a missing byte. -/
inductive DecodeError where
  /-- Fewer than the two bytes every instruction has (R70, R79). -/
  | fewerThanTwoBytes
  deriving DecidableEq, Repr

/-- The instruction at the head of a list of bytes in memory order, and the bytes after it (R70, R79). -/
def decodeBytes : List Byte → Except DecodeError (Instr × List Byte)
  | [] => .error .fewerThanTwoBytes
  | [_] => .error .fewerThanTwoBytes
  | b0 :: b1 :: rest => .ok (decode (wordOf b0 b1), rest)

/-- A register index as the four bits of its field (R75). -/
def regBits (r : Reg) : BitVec 4 := BitVec.ofFin (w := 4) r

/-- The word of an instruction (R71, R72, R80). -/
def encode : Instr → Word
  | .cls => 0x00E0
  | .jp nnn => 0x1#4 ++ nnn
  | .ld x nn => 0x6#4 ++ regBits x ++ nn
  | .add x nn => 0x7#4 ++ regBits x ++ nn
  | .ldi nnn => 0xA#4 ++ nnn
  | .drw x y n => 0xD#4 ++ regBits x ++ regBits y ++ n
  | .unhandled w => w

/-- The bytes of an instruction in memory order (R52, R80). -/
def encodeBytes (i : Instr) : List Byte := [highByte (encode i), lowByte (encode i)]

/-- A handled row of the dispatch table: a word belongs to it when w & mask = match (R72). -/
structure TableRow where
  mnemonic : String
  pattern : Word
  mask : Word
  deriving DecidableEq, Repr

/-- The word belongs to the row (R72). -/
def TableRow.selects (row : TableRow) (w : Word) : Bool := w &&& row.mask == row.pattern

/-- The six handled rows (R72). -/
def dispatchTable : List TableRow :=
  [⟨"CLS", 0x00E0, 0xFFFF⟩, ⟨"JP", 0x1000, 0xF000⟩, ⟨"LD", 0x6000, 0xF000⟩,
   ⟨"ADD", 0x7000, 0xF000⟩, ⟨"LDI", 0xA000, 0xF000⟩, ⟨"DRW", 0xD000, 0xF000⟩]

/-- The first `nbits` bits of `w` as a word. Bit 0 is the least significant bit of the word, and every bit above `nbits` is
0 (the opcode table's numbering). -/
def tableWord (nbits w : Nat) : Word := BitVec.ofNat 16 (w % 2 ^ nbits)

/-- What the decoder reads from the bytes of the table word, laid out high byte first (R52). -/
def decodeTableWord (nbits w : Nat) : Option Instr :=
  match decodeBytes [highByte (tableWord nbits w), lowByte (tableWord nbits w)] with
  | .ok (i, _) => some i
  | .error .fewerThanTwoBytes => none

end Sys2Proof
end

