-- ==== Sys2Proof/Config.lean ====
section
/-! DEFINITION. The implementation parameters of spec/00_scope.md R9 and R10. The spec leaves no value free inside a cycle
(spec/93_implementation_defined.md), so no opaque constant stands here: the one choice an implementation has that enters a
rule is LOAD_POLICY, which the loader takes as an argument (R10). -/

namespace Sys2Proof.Config

/-- MEM_SIZE (R9). -/
@[simp] abbrev memSize : Nat := 4096

/-- LOAD_ADDR, also the entry point (R9, R180). -/
@[simp] abbrev loadAddr : Nat := 0x200

/-- The bytes from LOAD_ADDR to the end of memory: 4096 - 0x200 (R168). -/
@[simp] abbrev loadCapacity : Nat := 3584

/-- The last address at which both bytes of an instruction word exist (R91). -/
@[simp] abbrev lastFetch : Nat := 4094

/-- STACK_DEPTH (R9). -/
@[simp] abbrev stackDepth : Nat := 16

/-- INSN_BYTES (R9, R70). -/
@[simp] abbrev insnBytes : Nat := 2

/-- FLAG_REG: VF (R9, R24). -/
@[simp] abbrev flagReg : Reg := 15

/-- What the loader does with an image longer than the program area (R10, R168). -/
inductive LoadPolicy where
  | truncate
  | failLoadTooLarge
  deriving DecidableEq, Repr

/-- The parameters the spec leaves OPEN, with its defaults (R9, R10). `cycleHz` and `timerHz` constrain the host's pacing
and enter no rule of the state transition (spec/70_reset_and_hazards.md R190). -/
structure Params where
  loadPolicy : LoadPolicy := .truncate
  cycleHz : Nat := 60
  timerHz : Nat := 60
  deriving DecidableEq, Repr

end Sys2Proof.Config
end

