-- ==== Sys2Proof/Machine/State.lean ====
section
/-! DEFINITION. The architectural state, exactly the record of spec/10_state.md R20, its reset value (R41), and the reasons a
step can stop. -/

namespace Sys2Proof.Machine

/-- The kinds of FATAL condition (spec/60_exceptions.md R152). -/
inductive FatalKind where
  | fetchOutOfBounds
  | spriteOutOfBounds
  | stackOverflow
  | stackUnderflow
  deriving DecidableEq, Repr

/-- The engine status (R37). -/
inductive Status where
  /-- RUNNING: the engine may take a cycle. -/
  | running
  /-- HALTED(kind, pc0, addr): the FATAL record, with the failed instruction's address and the offending address (R153). -/
  | halted (kind : FatalKind) (pc0 : Word) (addr : Nat)
  /-- STOPPED: the host asked the engine to stop (R173). -/
  | stopped
  deriving DecidableEq, Repr

/-- Memory, M[0..4095]: the non-zero bytes by rising address. An address that is not listed holds 0x00, the reset value of
every byte (R41, R50). -/
abbrev Memory := List Host.Cell

/-- The display buffer, D[x][y]: column first, then row (R35). -/
abbrev Display := Vector (Vector Bool 32) 64

/-- The machine state: the record of R20, field by field. -/
structure State where
  /-- M: 4096 bytes (R50). -/
  mem : Memory
  /-- V[0] to V[15], the general registers. V[15] is also the flag register VF (R23, R24). -/
  v : Vector Byte 16
  /-- I, the index register (R29). -/
  i : Word
  /-- pc, the program counter (R27). -/
  pc : Word
  /-- S[0] to S[15], the call stack (R30). -/
  stack : Vector Word 16
  /-- SP, the number of stack entries in use, 0 to 16 (R30). -/
  sp : Fin 17
  /-- DT, the delay timer (R33). -/
  dt : Byte
  /-- ST, the sound timer (R33). -/
  st : Byte
  /-- K[0] to K[15], the input latches (R34). -/
  keys : Vector Bool 16
  /-- D, the display buffer (R35). -/
  display : Display
  /-- dirty, the display dirty flag (R36). -/
  dirty : Bool
  /-- status, the engine status (R37). -/
  status : Status
  deriving DecidableEq, Repr

/-- Why the machine stops with a fault. -/
inductive Fault where
  /-- Raised by `step` alone, in a state whose status is HALTED: that state has no cycle (R99, R151). The FATAL condition
  itself was taken by the cycle before, as a next state. Safe: the hardware takes no cycle either. -/
  | halted (kind : FatalKind) (pc0 : Word) (addr : Nat)
  deriving DecidableEq, Repr

/-- Why a step has no meaning. -/
inductive Refusal where
  /-- Raised by an arm of `exec` for an instruction without a meaning. No arm does so in this model. Safe. -/
  | notModelled (mnemonic : String)
  /-- Raised by `step` alone, in a state whose status is STOPPED: that state has no cycle, and it is not a fault (R99, R101,
  R173). Safe: the hardware takes no cycle either. -/
  | stopped
  deriving DecidableEq, Repr

/-- The reset state (R40, R41, R180). -/
def State.reset : State where
  mem := []
  v := Vector.replicate 16 0
  i := 0
  pc := 0x200
  stack := Vector.replicate 16 0
  sp := 0
  dt := 0
  st := 0
  keys := Vector.replicate 16 false
  display := Vector.replicate 64 (Vector.replicate 32 false)
  dirty := false
  status := .running

end Sys2Proof.Machine
end

