-- ==== Sys2Proof/Machine/Ops.lean ====
section
/-! DEFINITION. The operations shared by the meanings: memory (spec/20_memory.md), the fetch and the advance
(spec/40_engine_cycle.md R91 to R93), taking a FATAL condition (spec/60_exceptions.md R151 to R154), and the stack primitives
(spec/10_state.md R31, R32). There is no return from a FATAL condition to model: only reset leaves HALTED (R155). -/

namespace Sys2Proof.Machine

/-! ### Memory -/

/-- What an address that is not listed holds (R41). -/
def blankByte : Byte := 0x00

/-- MemRead(a, 1) (R53). The rules call it only below 4096, after their bounds check (R13). -/
def Memory.read : Memory → Nat → Byte
  | [], _ => blankByte
  | (a, b) :: m, k => if a = k then b else Memory.read m k

/-- The list with address `k` holding `b`, in the canonical form. -/
def Memory.insert : Memory → Nat → Byte → Memory
  | [], k, b => if b = blankByte then [] else [(k, b)]
  | (a, c) :: m, k, b =>
    if k < a then (if b = blankByte then (a, c) :: m else (k, b) :: (a, c) :: m)
    else if k = a then (if b = blankByte then m else (k, b) :: m)
    else (a, c) :: Memory.insert m k b

/-- MemWrite(a, 1, b): used by the loader alone (R13). Addresses end at 4095 (R50): outside there is no byte to write, and
no rule writes there. -/
def Memory.write (m : Memory) (k : Nat) (b : Byte) : Memory :=
  if k < Config.memSize then m.insert k b else m

/-- The bytes written one after another from address `k` upward. -/
def Memory.writeBytes : Memory → Nat → List Byte → Memory
  | m, _, [] => m
  | m, k, b :: bs => (m.write k b).writeBytes (k + 1) bs

/-- The canonical form: addresses strictly rising and inside memory, no listed byte blank. -/
abbrev Memory.wf (m : Memory) : Prop :=
  m.Pairwise (fun c d => c.1 < d.1) ∧ ∀ c ∈ m, c.1 < Config.memSize ∧ c.2 ≠ blankByte

/-- M[a] of a state. -/
def State.readByte (s : State) (a : Nat) : Byte := s.mem.read a

/-! ### Fetch and advance -/

/-- The fetch bounds check: both bytes of the word exist (R91). -/
def State.canFetch (s : State) : Bool := decide (s.pc.toNat ≤ Config.lastFetch)

/-- w = MemRead(pc, 2), big-endian (R52, R53, R91). Addresses are natural numbers and do not wrap (R55). -/
def State.fetchWord (s : State) : Word := wordOf (s.readByte s.pc.toNat) (s.readByte (s.pc.toNat + 1))

/-- The advance, made before the handler runs (R93). -/
def State.advance (s : State) : State := { s with pc := s.pc + 2 }

/-- pc0, the address the running instruction was fetched from. A handler runs with pc = pc0 + 2 (R95), so it is pc - 2
(notes/assumptions/3.md). -/
def State.pc0 (s : State) : Word := s.pc - 2

/-- Memory with a word stored at address `k`, its high byte first (R52). -/
def Memory.placeWord (m : Memory) (k : Nat) (w : Word) : Memory := m.writeBytes k [highByte w, lowByte w]

/-! ### FATAL -/

/-- A FATAL condition as it is raised: its kind and its offending address (R152). -/
structure Fatal where
  kind : FatalKind
  addr : Nat
  deriving DecidableEq, Repr

/-- The spec's numbers of the kinds (R152). -/
def FatalKind.code : FatalKind → Nat
  | .fetchOutOfBounds => 1
  | .spriteOutOfBounds => 2
  | .stackOverflow => 3
  | .stackUnderflow => 4

/-- Taking a FATAL condition in the cycle of the instruction at `pc0`: pc holds pc0, status records it, nothing else changes
(R14, R151, R154). -/
def takeFatal (pc0 : Word) (f : Fatal) (s : State) : State :=
  { s with pc := pc0, status := .halted f.kind pc0 f.addr }

/-- The end of a handler that was entered in state `s` (pc = pc0 + 2): its next state, or, when it raised a FATAL condition,
`s` with the advance discarded and the condition taken (R100, R102). -/
def finish (s : State) : Except Fatal State → Host.Outcome State Fault Refusal
  | .ok t => .next t
  | .error f => .next (takeFatal s.pc0 f s)

/-! ### Stack primitives, called by no instruction in scope -/

/-- StackPush(a) (R31). -/
def stackPush (a : Word) (s : State) : Except Fatal State :=
  if h : s.sp.val = Config.stackDepth then .error ⟨.stackOverflow, s.sp.val⟩
  else
    have hlt : s.sp.val < 16 := by simp only [Config.stackDepth] at h; omega
    .ok { s with stack := s.stack.set s.sp.val a hlt, sp := ⟨s.sp.val + 1, by omega⟩ }

/-- StackPop(): the state after it and the popped entry (R32). -/
def stackPop (s : State) : Except Fatal (State × Word) :=
  if h : s.sp.val = 0 then .error ⟨.stackUnderflow, 0⟩
  else
    have hlt : s.sp.val - 1 < 16 := by omega
    .ok ({ s with sp := ⟨s.sp.val - 1, by omega⟩ }, s.stack[s.sp.val - 1]'hlt)

end Sys2Proof.Machine
end

