-- ==== Sys2Proof/Machine/Operands.lean ====
section
/-! DEFINITION. The operand forms: a register (R23, R75) and a 12-bit immediate (R74). An 8-bit immediate is used verbatim,
and the row count N as a natural number (R74). -/

namespace Sys2Proof.Machine

/-- V[r] (R12, R23). No register is hardwired. -/
def State.readReg (s : State) (r : Reg) : Byte := s.v.get r

/-- V[r] <- b (R12, R23). -/
def State.writeReg (s : State) (r : Reg) (b : Byte) : State := { s with v := s.v.set r.val b r.isLt }

/-- zext_16(NNN) (R74). -/
def zext16 (nnn : BitVec 12) : Word := nnn.setWidth 16

end Sys2Proof.Machine
end

