-- ==== Sys2Proof/Machine/Control.lean ====
section
/-! DEFINITION. JP NNN (spec/41_control_flow.md). It runs after the advance, which its assignment replaces (R110). -/

namespace Sys2Proof.Machine

/-- 1NNN (R110). -/
def execJp (nnn : BitVec 12) (s : State) : Host.Outcome State Fault Refusal :=
  .next { s with pc := zext16 nnn }

end Sys2Proof.Machine
end

