-- ==== Sys2Proof/Machine/Flags.lean ====
section
/-! DEFINITION. The one flag, the collision result in VF (spec/10_state.md R24, R26; spec/43_display.md R135). -/

namespace Sys2Proof.Machine

/-- VF, the flag register (R24). -/
def State.readFlag (s : State) : Byte := s.readReg Config.flagReg

/-- VF as DRW leaves it: 1 after a collision, else 0 (R135). -/
def collisionFlag (collided : Bool) : Byte := if collided then 1 else 0

/-- VF <- the collision result (R135). -/
def State.writeCollision (s : State) (collided : Bool) : State :=
  s.writeReg Config.flagReg (collisionFlag collided)

end Sys2Proof.Machine
end

