-- ==== Sys2Proof/Machine/Display.lean ====
section
/-! DEFINITION. The display compositor: CLS and DRW (spec/43_display.md). Each runs after the advance (R95). -/

namespace Sys2Proof.Machine

/-- D[x][y] of a display (R12, R35). -/
def Display.pixel (d : Display) (x : Column) (y : Row) : Bool := (d.get x).get y

/-- D[x][y] <- not D[x][y] (R134). -/
def Display.toggle (d : Display) (x : Column) (y : Row) : Display :=
  d.set x.val ((d.get x).set y.val (!d.pixel x y) y.isLt) x.isLt

/-- Every pixel off (R130). -/
def Display.blank : Display := Vector.replicate 64 (Vector.replicate 32 false)

/-- D[x][y] of a state. -/
def State.pixel (s : State) (x : Column) (y : Row) : Bool := s.display.pixel x y

/-- 00E0 (R130). -/
def execCls (s : State) : Host.Outcome State Fault Refusal :=
  .next { s with display := Display.blank, dirty := true }

/-! ### DRW -/

/-- A column sum modulo 64 (R131, R132). -/
def wrapColumn (a : Nat) : Column := ⟨a % 64, Nat.mod_lt a (by decide)⟩

/-- A row sum modulo 32 (R131, R132). -/
def wrapRow (a : Nat) : Row := ⟨a % 32, Nat.mod_lt a (by decide)⟩

/-- What a draw works on: the display, and whether a pixel has gone from on to off so far (R135). -/
structure Canvas where
  display : Display
  collided : Bool
  deriving DecidableEq, Repr

/-- The per-pixel XOR, which computes the collision as part of the toggle (R134, R135). -/
def Canvas.toggle (k : Canvas) (x : Column) (y : Row) : Canvas :=
  { display := k.display.toggle x y, collided := k.collided || k.display.pixel x y }

/-- Column offset `c` of a sprite row takes bit 7 - c of the row's byte (R133). -/
def spriteBit (b : Byte) (c : Nat) : Bool := b.getLsbD (7 - c)

/-- One pixel of a sprite row: a 1 bit toggles the wrapped pixel, a 0 bit leaves it (R132, R133). -/
def plotPixel (ox : Nat) (y : Row) (b : Byte) (k : Canvas) (c : Nat) : Canvas :=
  if spriteBit b c then k.toggle (wrapColumn (ox + c)) y else k

/-- One row of a sprite: column offsets 0 to 7 (R134). -/
def plotRow (ox : Nat) (y : Row) (b : Byte) (k : Canvas) : Canvas :=
  (List.range 8).foldl (plotPixel ox y b) k

/-- The rows of a sprite: row offsets 0 to n - 1, from the bytes at base, base + 1, ... (R133, R134). -/
def plotSprite (m : Memory) (base ox oy n : Nat) (k : Canvas) : Canvas :=
  (List.range n).foldl (fun k r => plotRow ox (wrapRow (oy + r)) (m.read (base + r)) k) k

/-- ox = V[X] mod 64 (R131). -/
def State.originColumn (s : State) (x : Reg) : Nat := (s.readReg x).toNat % 64

/-- oy = V[Y] mod 32 (R131). -/
def State.originRow (s : State) (y : Reg) : Nat := (s.readReg y).toNat % 32

/-- The N sprite bytes from `base` all lie in memory. With N = 0 there is no address to check (R136, R137). -/
def spriteInBounds (base n : Nat) : Bool := n == 0 || decide (base + n ≤ Config.memSize)

/-- The body of DRW, in the order of R134: inputs read, bounds checked, then the flag, the pixels and dirty written. -/
def drawSprite (x y : Reg) (n : BitVec 4) (s : State) : Except Fatal State :=
  let base := s.i.toNat
  if spriteInBounds base n.toNat then
    let k := plotSprite s.mem base (s.originColumn x) (s.originRow y) n.toNat ⟨s.display, false⟩
    .ok { s.writeCollision k.collided with display := k.display, dirty := true }
  else .error ⟨.spriteOutOfBounds, max base Config.memSize⟩

/-- DXYN (R134). -/
def execDrw (x y : Reg) (n : BitVec 4) (s : State) : Host.Outcome State Fault Refusal :=
  finish s (drawSprite x y n s)

end Sys2Proof.Machine
end

