-- ==== Sys2Proof/Machine/Immediate.lean ====
section
/-! DEFINITION. LD VX, NN; ADD VX, NN; LD I, NNN (spec/42_immediate_loads.md). Each runs after the advance (R95). -/

namespace Sys2Proof.Machine

/-- 6XNN (R120). -/
def execLd (x : Reg) (nn : Byte) (s : State) : Host.Outcome State Fault Refusal :=
  .next (s.writeReg x nn)

/-- 7XNN: unsigned addition modulo 256, no flag (R121). -/
def execAdd (x : Reg) (nn : Byte) (s : State) : Host.Outcome State Fault Refusal :=
  .next (s.writeReg x (s.readReg x + nn))

/-- ANNN (R122). -/
def execLdi (nnn : BitVec 12) (s : State) : Host.Outcome State Fault Refusal :=
  .next { s with i := zext16 nnn }

end Sys2Proof.Machine
end

