-- ==== Sys2Proof/Machine/Unhandled.lean ====
section
/-! DEFINITION. UNHANDLED (spec/40_engine_cycle.md R97, R98): its effect on the state, and its report, which is an output of
the cycle and not a field of State (spec/10_state.md R22; notes/assumptions/2.md). -/

namespace Sys2Proof.Machine

/-- The output event Unhandled(pc0, w) (R97). -/
structure Report where
  pc0 : Word
  word : Word
  deriving DecidableEq, Repr

/-- UNHANDLED writes no state (R97). The advance was made before it, and the word goes into the report. -/
def execUnhandled (_w : Word) (s : State) : Host.Outcome State Fault Refusal := .next s

/-- The report an instruction makes when its handler runs in state `s` (pc = pc0 + 2): one for UNHANDLED, none for a handled
instruction (R96, R97). -/
def reportOf (i : Instr) (s : State) : Option Report :=
  match i with
  | .cls => none
  | .jp _ => none
  | .ld _ _ => none
  | .add _ _ => none
  | .ldi _ => none
  | .drw _ _ _ => none
  | .unhandled w => some ⟨s.pc0, w⟩

/-- The report of the cycle that starts in state `s`, if it makes one (R96, R158). -/
def cycleReport (s : State) : Option Report :=
  if s.status = .running ∧ s.canFetch then reportOf (decode s.fetchWord) s.advance else none

end Sys2Proof.Machine
end

