-- ==== Sys2Proof/Machine/Dispatch.lean ====
section
/-! DEFINITION. One handler per operation (spec/40_engine_cycle.md R95). The handler runs in the state after the advance. -/

namespace Sys2Proof.Machine

/-- Dispatch (R95, R96). -/
def exec (i : Instr) (s : State) : Host.Outcome State Fault Refusal :=
  match i with
  | .cls => Sys2Proof.Machine.execCls s
  | .jp nnn => Sys2Proof.Machine.execJp nnn s
  | .ld x nn => Sys2Proof.Machine.execLd x nn s
  | .add x nn => Sys2Proof.Machine.execAdd x nn s
  | .ldi nnn => Sys2Proof.Machine.execLdi nnn s
  | .drw x y n => Sys2Proof.Machine.execDrw x y n s
  | .unhandled w => Sys2Proof.Machine.execUnhandled w s

end Sys2Proof.Machine
end

