-- ==== Sys2Proof/Machine/Cycle.lean ====
section
/-! DEFINITION. The fetch-decode-execute cycle (spec/40_engine_cycle.md R96). -/

namespace Sys2Proof.Machine

/-- The cycle of a RUNNING state: the fetch bounds check, then the decoded handler in the state after the advance (R91 to
R96). -/
def cycle (s : State) : Host.Outcome State Fault Refusal :=
  if s.canFetch then exec (decode s.fetchWord) s.advance
  else .next (takeFatal s.pc ⟨.fetchOutOfBounds, s.pc.toNat⟩ s)

/-- What a step answers, in the order of R158: a cycle where the status permits one. A state that is HALTED or STOPPED has no
cycle (R99; notes/assumptions/1.md). -/
def cycleIfRunning (s : State) : Host.Outcome State Fault Refusal :=
  match s.status with
  | .running => cycle s
  | .halted kind pc0 addr => .fault (.halted kind pc0 addr)
  | .stopped => .refused .stopped

end Sys2Proof.Machine
end

