-- ==== Sys2Proof/Machine/Step.lean ====
section
/-! DEFINITION. The step of the machine, one cycle, and the host's way to place a word where the next cycle fetches. -/

namespace Sys2Proof.Machine

/-- One step: one fetch-decode-execute cycle, where one is enabled (R90, R96). -/
def step (s : State) : Host.Outcome State Fault Refusal := cycleIfRunning s

/-- `s` with the table word stored where the next cycle fetches: B0 at pc, B1 at pc + 1 (R52). Nothing else changes
(notes/assumptions/7.md). -/
def State.withFetchWord (s : State) (nbits w : Nat) : State :=
  { s with mem := s.mem.placeWord s.pc.toNat (tableWord nbits w) }

end Sys2Proof.Machine
end

