-- ==== Sys2Proof/Machine/HostActions.lean ====
section
/-! DEFINITION. The host's atomic actions on the core and the outputs it reads (spec/60_exceptions.md R165 to R175). Each
takes place between two cycles (R159); Sys2Proof/Machine/System.lean says when each is enabled. -/

namespace Sys2Proof.Machine

/-- Reset: every field to its reset value, whatever the state was (R166, R181). -/
def resetAction (_s : State) : State := State.reset

/-- What LoadImage answers (R168). -/
inductive LoadResult where
  /-- The state with the image in memory. -/
  | loaded (s : State)
  /-- LOAD_TOO_LARGE: no byte was written. -/
  | loadTooLarge
  deriving DecidableEq, Repr

/-- LoadImage(b) (R168). -/
def loadImage (policy : Config.LoadPolicy) (image : List Byte) (s : State) : LoadResult :=
  if image.length > Config.loadCapacity ∧ policy = .failLoadTooLarge then .loadTooLarge
  else .loaded { s with mem := s.mem.writeBytes Config.loadAddr (image.take Config.loadCapacity) }

/-- ReadDisplay: the display and the dirty flag, no state change (R169). -/
def readDisplay (s : State) : Display × Bool := (s.display, s.dirty)

/-- AckDisplay (R170). -/
def ackDisplay (s : State) : State := { s with dirty := false }

/-- One timer counts down by 1 and stays at 0 (R171). -/
def countDown (t : Byte) : Byte := if t.toNat > 0 then t - 1 else t

/-- TimerTick (R171). -/
def timerTick (s : State) : State := { s with dt := countDown s.dt, st := countDown s.st }

/-- SetKey(k, v) (R172). -/
def setKey (k : Key) (pressed : Bool) (s : State) : State := { s with keys := s.keys.set k.val pressed k.isLt }

/-- Stop: RUNNING becomes STOPPED, any other status stays (R173). -/
def stopAction (s : State) : State :=
  match s.status with
  | .running => { s with status := .stopped }
  | .halted _ _ _ => s
  | .stopped => s

/-- sound_active: ST != 0 (R174). -/
def soundActive (s : State) : Bool := s.st != 0

/-- The status output, the HALTED record included (R175). -/
def statusOutput (s : State) : Status := s.status

end Sys2Proof.Machine
end

