-- ==== Sys2Proof/Machine/System.lean ====
section
/-! DEFINITION. The core and its host together: one total order of whole cycles and whole host actions
(spec/20_memory.md R58, spec/60_exceptions.md R159, R165). The schedule is a parameter (spec/10_state.md R22): the list of
moves is an argument, so every interleaving is a run. -/

namespace Sys2Proof.Machine

/-- Where the launch stands (spec/70_reset_and_hazards.md R182, R183). It is the host's bookkeeping, no field of State. -/
inductive Phase where
  /-- After reset, before LoadImage: LoadImage is permitted, no cycle runs. -/
  | fresh
  /-- After a successful LoadImage: cycles run, memory is not written again (R62, R168). -/
  | launched
  /-- After LOAD_TOO_LARGE: there is no launch state and no cycle runs (R183). -/
  | notLaunched
  deriving DecidableEq, Repr

/-- The core, the launch phase, and the UNHANDLED reports the log sink has received, oldest first (R98, R165). -/
structure System where
  phase : Phase
  core : State
  reports : List Report
  deriving DecidableEq, Repr

/-- One atomic action of the engine or of the host (R165). -/
inductive Move where
  | cycle
  | reset
  | loadImage (image : List Byte)
  | readDisplay
  | ackDisplay
  | timerTick
  | setKey (k : Key) (pressed : Bool)
  | stop
  deriving DecidableEq, Repr

/-- The system right after reset. -/
def System.boot : System := ⟨.fresh, State.reset, []⟩

/-- A cycle of a launched core, with its report appended to the log (R167, R97). None where no cycle is enabled. -/
def System.cycle (σ : System) : Option System :=
  match σ.phase with
  | .launched =>
    match step σ.core with
    | .next t => some ⟨.launched, t, σ.reports ++ (cycleReport σ.core).toList⟩
    | .fault _ => none
    | .refused _ => none
  | .fresh => none
  | .notLaunched => none

/-- LoadImage, once, between reset and the first cycle (R168, R182, R183). None where it is not permitted. -/
def System.load (p : Config.Params) (image : List Byte) (σ : System) : Option System :=
  match σ.phase with
  | .fresh =>
    match Sys2Proof.Machine.loadImage p.loadPolicy image σ.core with
    | .loaded t => some { σ with phase := .launched, core := t }
    | .loadTooLarge => some { σ with phase := .notLaunched }
  | .launched => none
  | .notLaunched => none

/-- One move. None where it is not enabled. Host actions other than LoadImage are permitted in every status and phase (R166,
R169 to R173; notes/assumptions/6.md). -/
def System.move (p : Config.Params) (m : Move) (σ : System) : Option System :=
  match m with
  | .cycle => σ.cycle
  | .reset => some { σ with phase := .fresh, core := resetAction σ.core }
  | .loadImage image => σ.load p image
  | .readDisplay => some σ
  | .ackDisplay => some { σ with core := Sys2Proof.Machine.ackDisplay σ.core }
  | .timerTick => some { σ with core := Sys2Proof.Machine.timerTick σ.core }
  | .setKey k pressed => some { σ with core := Sys2Proof.Machine.setKey k pressed σ.core }
  | .stop => some { σ with core := stopAction σ.core }

/-- A schedule of moves, one after another. None when one of them is not enabled. -/
def System.run (p : Config.Params) : List Move → System → Option System
  | [], σ => some σ
  | m :: ms, σ =>
    match σ.move p m with
    | some τ => System.run p ms τ
    | none => none

/-- The launch state of an image (R183): reset, then LoadImage. None when the image is too large for the policy. -/
def launchState (policy : Config.LoadPolicy) (image : List Byte) : Option State :=
  match Sys2Proof.Machine.loadImage policy image State.reset with
  | .loaded s => some s
  | .loadTooLarge => none

end Sys2Proof.Machine
end

