-- ==== Sys2Proof/Safety.lean ====
section
/-! DEFINITION. The terms the claims use: the invariant of a state, the reachable systems, what a frame leaves unchanged, and
the pixels a sprite names. -/

namespace Sys2Proof.Machine

/-! ### Invariant and reachability -/

/-- What the HALTED record may hold beside the state it froze: only kinds 1 and 2 occur (R152), pc0 is pc (R154), and the
offending address is pc0 for a fetch and 0x1000 for a sprite (R92, R136). -/
def State.recordOk (s : State) : Prop :=
  match s.status with
  | .running => True
  | .stopped => True
  | .halted .fetchOutOfBounds p a => p = s.pc ∧ 4094 < p.toNat ∧ a = p.toNat
  | .halted .spriteOutOfBounds p a => p = s.pc ∧ p.toNat ≤ 4094 ∧ a = 0x1000
  | .halted .stackOverflow _ _ => False
  | .halted .stackUnderflow _ _ => False

/-- The invariant of a state: the memory list is canonical, pc and I keep the ranges of R28 and R29, and the FATAL record is
one the core can make. -/
structure State.Inv (s : State) : Prop where
  memWf : s.mem.wf
  pcRange : s.pc.toNat ≤ 4096
  indexRange : s.i.toNat ≤ 0xFFF
  record : s.recordOk

/-- The systems some schedule of moves reaches from boot (R58, R182). -/
inductive Reachable (p : Config.Params) : System → Prop where
  | boot : Reachable p System.boot
  | move {σ τ : System} (m : Move) : Reachable p σ → σ.move p m = some τ → Reachable p τ

/-- A system right after a reset: boot, or what a reset move of any system leaves (R166, R182). -/
def AfterReset (p : Config.Params) (ρ : System) : Prop := ρ = System.boot ∨ ∃ σ : System, σ.move p .reset = some ρ

/-- LOAD_POLICY lets the image be loaded (R168): it fits the program area, or the policy truncates it. -/
def Accepted (p : Config.Params) (image : List Byte) : Prop :=
  ¬ (3584 < image.length ∧ p.loadPolicy = .failLoadTooLarge)

/-- The byte at address `a` of the launch image: the image from 0x200 on as far as it fits, zeros around it (R51, R183). -/
def launchByte (image : List Byte) (a : Nat) : Byte :=
  if 0x200 ≤ a ∧ a < 0x200 + min image.length 3584 then (image[a - 0x200]?).getD 0 else 0

/-- The invariant of a system: the core's, the stack that no instruction in scope uses (R30), the reserved range that nothing
writes (R51), and memory as reset left it before a launch (R168). -/
structure System.Inv (σ : System) : Prop where
  core : σ.core.Inv
  spZero : σ.core.sp = 0
  stackZero : ∀ k : Fin 16, σ.core.stack.get k = 0
  reservedZero : ∀ a : Nat, a < 0x200 → σ.core.readByte a = 0
  unloaded : σ.phase ≠ .launched → ∀ a : Nat, σ.core.readByte a = 0

/-- The run has met a FATAL condition. HALTED is a fault, STOPPED is not (R101). -/
def State.faulted (s : State) : Bool :=
  match s.status with
  | .running => false
  | .halted _ _ _ => true
  | .stopped => false

/-- The outcome with `f` applied to its next state, if it has one. -/
def mapNext (f : State → State) : Host.Outcome State Fault Refusal → Host.Outcome State Fault Refusal
  | .next s => .next (f s)
  | .fault r => .fault r
  | .refused r => .refused r

/-- `s` with other timers, latches and stack: the state no instruction in scope reads (R30, R33, R34). -/
def State.withPeripherals (s : State) (dt st : Byte) (keys : Vector Bool 16) (stack : Vector Word 16) (sp : Fin 17) : State :=
  { s with dt := dt, st := st, keys := keys, stack := stack, sp := sp }

/-! ### Frames: `t` is the state after, `s` the state before -/

/-- Every byte of memory reads as before. -/
def SameMemory (s t : State) : Prop := ∀ a : Nat, t.readByte a = s.readByte a

/-- Every general register reads as before. -/
def SameRegs (s t : State) : Prop := ∀ r : Reg, t.readReg r = s.readReg r

/-- Every general register but `x` reads as before. -/
def SameRegsBut (x : Reg) (s t : State) : Prop := ∀ r : Reg, r ≠ x → t.readReg r = s.readReg r

/-- The call stack and SP are as before. -/
def SameStack (s t : State) : Prop := t.stack = s.stack ∧ t.sp = s.sp

/-- The two timers and the input latches are as before. -/
def SameTimersAndKeys (s t : State) : Prop := t.dt = s.dt ∧ t.st = s.st ∧ t.keys = s.keys

/-- Every pixel and the dirty flag are as before. -/
def SameDisplay (s t : State) : Prop :=
  (∀ (px : Column) (py : Row), t.pixel px py = s.pixel px py) ∧ t.dirty = s.dirty

/-- Everything but the general registers, I, pc, the display and `dirty` is as before: memory, stack, timers, latches and
status. -/
def SameRest (s t : State) : Prop :=
  SameMemory s t ∧ SameStack s t ∧ SameTimersAndKeys s t ∧ t.status = s.status

/-! ### Sprites -/

/-- The sprite pixel at row offset `r` and column offset `c` is set and lands on column `px`, row `py`, when V[x], V[y] and I
are those of `s` (R131, R132, R133). -/
def SpriteLands (s : State) (x y : Reg) (r c : Nat) (px : Column) (py : Row) : Prop :=
  px.val = ((s.readReg x).toNat % 64 + c) % 64 ∧ py.val = ((s.readReg y).toNat % 32 + r) % 32 ∧
    (s.readByte (s.i.toNat + r)).getLsbD (7 - c) = true

/-- Some set pixel of the N-row sprite lands on column `px`, row `py` (R132, R133). -/
def SpriteCovers (s : State) (x y : Reg) (n : Nat) (px : Column) (py : Row) : Prop :=
  ∃ r c : Nat, r < n ∧ c < 8 ∧ SpriteLands s x y r c px py

/-- The sprite bounds check fails: there is a sprite byte, and the last one lies past 0xFFF (R136). -/
def SpritePastEnd (s : State) (n : Nat) : Prop := 1 ≤ n ∧ 4095 < s.i.toNat + n - 1

end Sys2Proof.Machine
end

