-- ==== Sys2Proof/Certificates/Slice0/Obligations.lean ====
section
/-! DEFINITION. The statements for the provers. Each docstring names the rule of spec/ it formalises; OBLIGATIONS.json lists
them. In a statement about `exec`, `s` is the state the handler runs in, whose pc is already pc0 + 2 (R95). -/

open Sys2Proof Sys2Proof.Machine

/-! ### Encoding (spec/30_encoding.md) -/

/-- Decoding the word of a well-formed instruction gives the instruction back, for every operand (R70 to R76). -/
def Obligations.DecodeOfEncodeIsTheInstruction : Prop :=
  ∀ i : Instr, i.wellFormed = true → decode (encode i) = i

/-- Every word decodes to a well-formed instruction whose word it is (R73, R76, R77). -/
def Obligations.EncodeOfDecodeIsTheWord : Prop :=
  ∀ w : Word, (decode w).wellFormed = true ∧ encode (decode w) = w

/-- Two different words never decode to the same instruction with the same operands (R76). -/
def Obligations.DistinctWordsDecodeApart : Prop :=
  ∀ w w' : Word, decode w = decode w' → w = w'

/-- The decode function, class by class, with its fields (R73). -/
def Obligations.DecodeFollowsTheClassNibble : Prop :=
  ∀ w : Word,
    (w = 0x00E0 → decode w = .cls) ∧
    (w.extractLsb' 12 4 = 0x0 → w.extractLsb' 0 12 ≠ 0x0E0 → decode w = .unhandled w) ∧
    (w.extractLsb' 12 4 = 0x1 → decode w = .jp (w.extractLsb' 0 12)) ∧
    (w.extractLsb' 12 4 = 0x6 → decode w = .ld (w.extractLsb' 8 4).toFin (w.extractLsb' 0 8)) ∧
    (w.extractLsb' 12 4 = 0x7 → decode w = .add (w.extractLsb' 8 4).toFin (w.extractLsb' 0 8)) ∧
    (w.extractLsb' 12 4 = 0xA → decode w = .ldi (w.extractLsb' 0 12)) ∧
    (w.extractLsb' 12 4 = 0xD →
      decode w = .drw (w.extractLsb' 8 4).toFin (w.extractLsb' 4 4).toFin (w.extractLsb' 0 4)) ∧
    (w.extractLsb' 12 4 ∉ ([0x0, 0x1, 0x6, 0x7, 0xA, 0xD] : List (BitVec 4)) → decode w = .unhandled w)

/-- A word is UNHANDLED exactly when no row of the dispatch table selects it by its mask and match, and no two rows select
one word (R72, R73, R77). -/
def Obligations.UnhandledIsOutsideEveryRow : Prop :=
  ∀ w : Word,
    (decode w = .unhandled w ↔ ∀ row ∈ dispatchTable, w &&& row.mask ≠ row.pattern) ∧
    ∀ row ∈ dispatchTable, ∀ row' ∈ dispatchTable,
      w &&& row.mask = row.pattern → w &&& row'.mask = row'.pattern → row = row'

/-- One written-out word of every family decodes to the instruction it stands for (words of spec/95_test_vectors.md). -/
def Obligations.WrittenOutWordsDecode : Prop :=
  decode 0x00E0 = .cls ∧ decode 0x1234 = .jp 0x234 ∧ decode 0x6A42 = .ld 10 0x42 ∧ decode 0x7320 = .add 3 0x20 ∧
  decode 0xA20A = .ldi 0x20A ∧ decode 0xDF12 = .drw 15 1 2 ∧ decode 0x00EE = .unhandled 0x00EE ∧
  decode 0xFFFF = .unhandled 0xFFFF

/-! ### The cycle (spec/40_engine_cycle.md) -/

/-- The fetched word is B0 * 256 + B1, the byte at pc first (R52). -/
def Obligations.FetchedWordIsBigEndian : Prop :=
  ∀ s : State, s.fetchWord.toNat = (s.readByte s.pc.toNat).toNat * 256 + (s.readByte (s.pc.toNat + 1)).toNat

/-- After a successful fetch the cycle advances pc by 2 without a wrap and runs the decoded instruction in that state (R93). -/
def Obligations.StepRunsTheDecodedInstruction : Prop :=
  ∀ s : State, s.status = .running → s.pc.toNat ≤ 4094 →
    step s = exec (decode s.fetchWord) { s with pc := s.pc + 2 } ∧
    (s.pc + 2).toNat = s.pc.toNat + 2 ∧ (s.pc + 2).toNat ≤ 4096

/-- A word the host places at pc is the one the next cycle runs, and no other byte of memory changes (the model's
withFetchWord, notes/assumptions/7.md). -/
def Obligations.StepRunsThePlacedWord : Prop :=
  ∀ (s : State) (nbits w : Nat), s.mem.wf → s.status = .running → s.pc.toNat ≤ 4094 →
    step (s.withFetchWord nbits w) =
      exec (decode (BitVec.ofNat 16 (w % 2 ^ nbits))) { s.withFetchWord nbits w with pc := s.pc + 2 } ∧
    ∀ a : Nat, a ≠ s.pc.toNat → a ≠ s.pc.toNat + 1 → (s.withFetchWord nbits w).readByte a = s.readByte a

/-- A failed fetch changes nothing but the status, whose record names the kind, pc0 and the offending address pc0, and no
instruction executes after it (R92). -/
def Obligations.FailedFetchHaltsAndChangesNothingElse : Prop :=
  ∀ s : State, s.status = .running → 4094 < s.pc.toNat →
    step s = .next { s with status := .halted .fetchOutOfBounds s.pc s.pc.toNat } ∧
    ∀ t : State, step { s with status := .halted .fetchOutOfBounds s.pc s.pc.toNat } ≠ .next t

/-- A cycle needs RUNNING, its fetch fails exactly when pc0 is 4095 or more, and otherwise the word it decodes is
B0 * 256 + B1 (R91). -/
def Obligations.FetchFailsExactlyFrom4095 : Prop :=
  (∀ s t : State, step s = .next t → s.status = .running) ∧
  ∀ s : State, s.status = .running →
    ((∃ (t : State) (p : Word) (a : Nat), step s = .next t ∧ t.status = .halted .fetchOutOfBounds p a) ↔
      4095 ≤ s.pc.toNat) ∧
    (s.pc.toNat ≤ 4094 → ∃ w : Word,
      w.toNat = (s.readByte s.pc.toNat).toNat * 256 + (s.readByte (s.pc.toNat + 1)).toNat ∧
      step s = exec (decode w) { s with pc := s.pc + 2 })

/-- A state takes a cycle exactly when its status is RUNNING (R99). -/
def Obligations.CycleRunsExactlyWhenRunning : Prop :=
  ∀ s : State, (∃ t : State, step s = .next t) ↔ s.status = .running

/-- How the model's step shows that no cycle is enabled: a fault that repeats the record in a HALTED state, a refusal in a
STOPPED one. The two outcomes are the model's choice (notes/assumptions/1.md). -/
def Obligations.HaltedFaultsAndStoppedIsRefused : Prop :=
  ∀ s : State,
    (∀ (k : FatalKind) (p : Word) (a : Nat), s.status = .halted k p a → step s = .fault (.halted k p a)) ∧
    (s.status = .stopped → step s = .refused .stopped)

/-- A FATAL condition is precise: the halted state is the state before the failed cycle in every field but status, and the
record's pc0 is its pc (R154). -/
def Obligations.FatalIsPrecise : Prop :=
  ∀ (s t : State) (k : FatalKind) (p : Word) (a : Nat), step s = .next t → t.status = .halted k p a →
    t = { s with status := .halted k p a } ∧ p = s.pc

/-- The causes of FATAL, their offending addresses and their numbers. A cycle meets the first two alone; the stack
primitives raise the other two (R152). -/
def Obligations.FatalCausesAreTheTable : Prop :=
  (∀ (s t : State) (k : FatalKind) (p : Word) (a : Nat), step s = .next t → t.status = .halted k p a →
    (k = .fetchOutOfBounds ∧ 4094 < s.pc.toNat ∧ a = s.pc.toNat) ∨
    (k = .spriteOutOfBounds ∧ s.pc.toNat ≤ 4094 ∧ ∃ (x y : Reg) (n : BitVec 4), decode s.fetchWord = .drw x y n ∧
      1 ≤ n.toNat ∧ 4095 < s.i.toNat + n.toNat - 1 ∧ a = max s.i.toNat 4096)) ∧
  (∀ (s : State) (a : Word) (f : Fatal), stackPush a s = .error f ↔ s.sp.val = 16 ∧ f = ⟨.stackOverflow, 16⟩) ∧
  (∀ (s : State) (f : Fatal), stackPop s = .error f ↔ s.sp.val = 0 ∧ f = ⟨.stackUnderflow, 0⟩) ∧
  FatalKind.fetchOutOfBounds.code = 1 ∧ FatalKind.spriteOutOfBounds.code = 2 ∧
  FatalKind.stackOverflow.code = 3 ∧ FatalKind.stackUnderflow.code = 4

/-- A cycle that stays RUNNING leaves pc at pc0 + 2, but for JP, which leaves it at NNN (R27, R112). -/
def Obligations.OnlyJpLeavesSequentialFlow : Prop :=
  ∀ s t : State, step s = .next t → t.status = .running →
    (∀ nnn : BitVec 12, decode s.fetchWord = .jp nnn → t.pc.toNat = nnn.toNat) ∧
    ((∀ nnn : BitVec 12, decode s.fetchWord ≠ .jp nnn) → t.pc.toNat = s.pc.toNat + 2)

/-- Code that runs into zero bytes up to the end of memory executes them as UNHANDLED words, two bytes a cycle, until the
fetch at 0xFFF or 0x1000 raises FATAL (R112, R184). -/
def Obligations.ZeroMemoryRunsOffTheEnd : Prop :=
  ∀ (s : State) (k : Nat), s.status = .running →
    (∀ a : Nat, s.pc.toNat ≤ a → a ≤ 4095 → s.readByte a = 0) →
    (s.pc.toNat + 2 * k = 4095 ∨ s.pc.toNat + 2 * k = 4096) →
    Sys2Proof.core.run k s = .next { s with pc := s.pc + BitVec.ofNat 16 (2 * k) } ∧
    Sys2Proof.core.run (k + 1) s = .next { s with
      pc := s.pc + BitVec.ofNat 16 (2 * k),
      status := .halted .fetchOutOfBounds (s.pc + BitVec.ofNat 16 (2 * k)) (s.pc.toNat + 2 * k) }

/-- No cycle changes memory, the stack, the timers or the latches (R30, R33, R34, R54). -/
def Obligations.CyclesKeepMemoryStackTimersAndKeys : Prop :=
  ∀ s t : State, step s = .next t → SameMemory s t ∧ SameStack s t ∧ SameTimersAndKeys s t

/-- A cycle changes a general register only as LD's or ADD's destination or as the flag register of DRW, and I only by
LD I (R25, R29). -/
def Obligations.RegistersAreWrittenOnlyByTheirInstructions : Prop :=
  ∀ s t : State, step s = .next t →
    (∀ r : Reg, t.readReg r ≠ s.readReg r →
      (∃ nn : Byte, decode s.fetchWord = .ld r nn) ∨ (∃ nn : Byte, decode s.fetchWord = .add r nn) ∨
      (r = 15 ∧ ∃ (x y : Reg) (n : BitVec 4), decode s.fetchWord = .drw x y n)) ∧
    (t.i ≠ s.i → ∃ nnn : BitVec 12, decode s.fetchWord = .ldi nnn)

/-- Only CLS and DRW change a pixel, each of them leaves dirty set when it completes, and no cycle clears dirty (R35, R36). -/
def Obligations.DisplayIsWrittenOnlyByClsAndDrw : Prop :=
  ∀ s t : State, step s = .next t →
    (¬ SameDisplay s t →
      decode s.fetchWord = .cls ∨ ∃ (x y : Reg) (n : BitVec 4), decode s.fetchWord = .drw x y n) ∧
    (t.status = .running → (decode s.fetchWord = .cls ∨ ∃ (x y : Reg) (n : BitVec 4), decode s.fetchWord = .drw x y n) →
      t.dirty = true) ∧
    (s.dirty = true → t.dirty = true)

/-! ### The instructions: result, frame and completion -/

/-- CLS (R130). -/
def Obligations.ClsClearsEveryPixel : Prop :=
  (∀ w : Word, decode w = .cls ↔ w = 0x00E0) ∧
  ∀ s : State, ∃ t : State, exec .cls s = .next t ∧
    (∀ (px : Column) (py : Row), t.pixel px py = false) ∧ t.dirty = true ∧
    SameRegs s t ∧ t.i = s.i ∧ t.pc = s.pc ∧ SameRest s t

/-- JP NNN: pc becomes NNN and nothing else changes; a jump to 0xFFF makes the next cycle fail its fetch there; a jump to
itself repeats the same cycle for ever (R110). -/
def Obligations.JpSetsThePcExactly : Prop :=
  (∀ nnn : BitVec 12, decode (0x1#4 ++ nnn) = .jp nnn) ∧
  (∀ (nnn : BitVec 12) (s : State), ∃ t : State, exec (.jp nnn) s = .next t ∧ t.pc.toNat = nnn.toNat ∧
    SameRegs s t ∧ t.i = s.i ∧ SameDisplay s t ∧ SameRest s t ∧
    (nnn = 0xFFF → s.status = .running →
      step t = .next { t with status := .halted .fetchOutOfBounds 0x0FFF 0xFFF })) ∧
  (∀ s : State, s.status = .running → s.pc.toNat ≤ 4094 → decode s.fetchWord = .jp (s.pc.extractLsb' 0 12) →
    ∀ k : Nat, Sys2Proof.core.run k s = .next s)

/-- LD VX, NN (R120). -/
def Obligations.LdLoadsTheImmediate : Prop :=
  ∀ (x : Reg) (nn : Byte),
    decode (0x6#4 ++ BitVec.ofFin (w := 4) x ++ nn) = .ld x nn ∧
    ∀ s : State, ∃ t : State, exec (.ld x nn) s = .next t ∧ t.readReg x = nn ∧
      SameRegsBut x s t ∧ t.i = s.i ∧ t.pc = s.pc ∧ SameDisplay s t ∧ SameRest s t

/-- ADD VX, NN: the sum modulo 256, VF written only when X is 15 (R121). -/
def Obligations.AddWrapsAndWritesNoFlag : Prop :=
  ∀ (x : Reg) (nn : Byte),
    decode (0x7#4 ++ BitVec.ofFin (w := 4) x ++ nn) = .add x nn ∧
    ∀ s : State, ∃ t : State, exec (.add x nn) s = .next t ∧
      (t.readReg x).toNat = ((s.readReg x).toNat + nn.toNat) % 256 ∧
      SameRegsBut x s t ∧ t.i = s.i ∧ t.pc = s.pc ∧ SameDisplay s t ∧ SameRest s t

/-- LD I, NNN (R122). -/
def Obligations.LdiLoadsTheIndexRegister : Prop :=
  ∀ nnn : BitVec 12,
    decode (0xA#4 ++ nnn) = .ldi nnn ∧
    ∀ s : State, ∃ t : State, exec (.ldi nnn) s = .next t ∧ t.i.toNat = nnn.toNat ∧ t.i.extractLsb' 12 4 = 0 ∧
      SameRegs s t ∧ t.pc = s.pc ∧ SameDisplay s t ∧ SameRest s t

/-- UNHANDLED: the handler writes no state; the cycle advances pc by 2, reports the word and its address and stays RUNNING;
no other cycle reports; at 4094 it leaves pc = 4096, where the next fetch fails (R97). -/
def Obligations.UnhandledIsReportedAndSkipped : Prop :=
  (∀ (w : Word) (s : State), exec (.unhandled w) s = .next s) ∧
  (∀ (s : State) (w : Word), s.status = .running → s.pc.toNat ≤ 4094 → decode s.fetchWord = .unhandled w →
    w = s.fetchWord ∧ step s = .next { s with pc := s.pc + 2 } ∧ cycleReport s = some ⟨s.pc, w⟩ ∧
    (s.pc.toNat = 4094 → ∃ u : State, step { s with pc := s.pc + 2 } = .next u ∧
      u.status = .halted .fetchOutOfBounds 0x1000 0x1000)) ∧
  ∀ (s : State) (e : Report), cycleReport s = some e →
    s.status = .running ∧ s.pc.toNat ≤ 4094 ∧ decode s.fetchWord = .unhandled e.word ∧ e.pc0 = s.pc

/-- DRW with its sprite in memory, for every X, Y, N, X = Y and X or Y = 15 included: each pixel is toggled exactly when a set
sprite pixel lands on it after the wrap on both axes, no two sprite pixels land on one display pixel, VF is 1 exactly when a
set sprite pixel was on before the draw and 0 otherwise, dirty is set, and nothing else changes. A DRW whose sprite runs past
the end of memory does not set dirty (R131, R132, R133, R135, R138, R140, R141, R142). -/
def Obligations.DrwTogglesTheSpriteAndReportsCollision : Prop :=
  (∀ (x y : Reg) (n : BitVec 4) (s : State), ¬ SpritePastEnd s n.toNat → ∃ t : State, exec (.drw x y n) s = .next t ∧
    (∀ (px : Column) (py : Row),
      t.pixel px py = true ↔ ¬ (s.pixel px py = true ↔ SpriteCovers s x y n.toNat px py)) ∧
    (∀ (px : Column) (py : Row) (r c r' c' : Nat), r < n.toNat → r' < n.toNat → c < 8 → c' < 8 →
      SpriteLands s x y r c px py → SpriteLands s x y r' c' px py → r = r' ∧ c = c') ∧
    ((∃ (px : Column) (py : Row), SpriteCovers s x y n.toNat px py ∧ s.pixel px py = true) → t.readReg 15 = 1) ∧
    ((¬ ∃ (px : Column) (py : Row), SpriteCovers s x y n.toNat px py ∧ s.pixel px py = true) → t.readReg 15 = 0) ∧
    t.dirty = true ∧ SameRegsBut 15 s t ∧ t.i = s.i ∧ t.pc = s.pc ∧ SameRest s t) ∧
  ∀ (x y : Reg) (n : BitVec 4) (s : State), SpritePastEnd s n.toNat →
    ∃ t : State, exec (.drw x y n) s = .next t ∧ t.dirty = s.dirty

/-- DRW with its sprite past the end of memory: FATAL with the first address past the end, pc stays at pc0, and nothing of the
instruction takes effect. From an index register of at most 0xFFF that is so exactly when I + N > 4096, and the address is
0x1000 (R136). -/
def Obligations.DrwPastTheEndHaltsPrecisely : Prop :=
  (∀ (x y : Reg) (n : BitVec 4) (s : State), s.status = .running → s.pc.toNat ≤ 4094 →
    decode s.fetchWord = .drw x y n → SpritePastEnd s n.toNat →
    step s = .next { s with status := .halted .spriteOutOfBounds s.pc (max s.i.toNat 4096) }) ∧
  ∀ (n : BitVec 4) (s : State), s.i.toNat ≤ 0xFFF →
    (SpritePastEnd s n.toNat ↔ 4096 < s.i.toNat + n.toNat) ∧ max s.i.toNat 4096 = 0x1000

/-- The handler of such a DRW, which is entered with pc = pc0 + 2, discards the advance: that pc0 is pc - 2 is the model's
inference (notes/assumptions/3.md). -/
def Obligations.FailedDrwDiscardsTheAdvance : Prop :=
  ∀ (x y : Reg) (n : BitVec 4) (s : State), SpritePastEnd s n.toNat →
    exec (.drw x y n) s = .next { s with
      pc := s.pc - 2, status := .halted .spriteOutOfBounds (s.pc - 2) (max s.i.toNat 4096) }

/-- DRW with N = 0, for every index register: no pixel changes, VF becomes 0, dirty is set, no bounds check is made (R137). -/
def Obligations.DrwOfZeroRowsClearsTheFlag : Prop :=
  ∀ (x y : Reg) (s : State), ∃ t : State, exec (.drw x y 0) s = .next t ∧
    (∀ (px : Column) (py : Row), t.pixel px py = s.pixel px py) ∧ t.readReg 15 = 0 ∧ t.dirty = true ∧
    SameRegsBut 15 s t ∧ t.i = s.i ∧ t.pc = s.pc ∧ SameRest s t

/-- The origin counts only modulo 64 and 32: states that agree in memory, I and display, and whose coordinate registers are
congruent, are drawn alike (R131; the source's vector L1-5). -/
def Obligations.DrwOriginCountsModuloTheScreen : Prop :=
  ∀ (x y : Reg) (n : BitVec 4) (s u : State), u.mem = s.mem → u.i = s.i → u.display = s.display →
    (u.readReg x).toNat % 64 = (s.readReg x).toNat % 64 → (u.readReg y).toNat % 32 = (s.readReg y).toNat % 32 →
    ¬ SpritePastEnd s n.toNat →
    ∃ t v : State, exec (.drw x y n) s = .next t ∧ exec (.drw x y n) u = .next v ∧
      v.display = t.display ∧ v.readReg 15 = t.readReg 15

/-- Drawing the same sprite at the same origin twice restores the display, and the second draw's VF is 1 exactly when the
first draw turned a pixel on; on a display that was all off, exactly when the sprite has a 1 bit. The premise that the
coordinate registers are the same for both draws can fail only when X or Y is 15 (R139). -/
def Obligations.DoubleDrawRestoresTheDisplay : Prop :=
  ∀ (x y : Reg) (n : BitVec 4) (s : State), ¬ SpritePastEnd s n.toNat → ∃ t : State, exec (.drw x y n) s = .next t ∧
    (t.readReg x = s.readReg x → t.readReg y = s.readReg y → ∃ u : State, exec (.drw x y n) t = .next u ∧
      (∀ (px : Column) (py : Row), u.pixel px py = s.pixel px py) ∧
      (u.readReg 15 = 0 ∨ u.readReg 15 = 1) ∧
      (u.readReg 15 = 1 ↔
        ∃ (px : Column) (py : Row), SpriteCovers s x y n.toNat px py ∧ s.pixel px py = false) ∧
      ((∀ (px : Column) (py : Row), s.pixel px py = false) →
        (u.readReg 15 = 1 ↔ ∃ r c : Nat, r < n.toNat ∧ c < 8 ∧
          (s.readByte (s.i.toNat + r)).getLsbD (7 - c) = true)))

/-! ### Invariants and reachable systems -/

/-- Reset leaves every field at its reset value, from every state; the reset move of every system does so and permits the next
LoadImage; and no other move makes a HALTED or STOPPED core RUNNING (R41, R166, R181). What the move is beside the core is the
model's: it keeps the report list (notes/assumptions/2.md, DESIGN CHOICE), is permitted in every status and phase
(notes/assumptions/6.md, DEDUCED) and sets the launch phase (notes/assumptions/10.md, DEDUCED). -/
def Obligations.ResetZeroesEveryField : Prop :=
  ((∀ a : Nat, State.reset.readByte a = 0) ∧ (∀ r : Reg, State.reset.readReg r = 0) ∧ State.reset.i = 0 ∧
    State.reset.pc = 0x200 ∧ (∀ k : Fin 16, State.reset.stack.get k = 0) ∧ State.reset.sp = 0 ∧
    State.reset.dt = 0 ∧ State.reset.st = 0 ∧ (∀ k : Key, State.reset.keys.get k = false) ∧
    (∀ (px : Column) (py : Row), State.reset.pixel px py = false) ∧ State.reset.dirty = false ∧
    State.reset.status = .running) ∧
  (∀ s : State, resetAction s = State.reset) ∧
  (∀ (p : Config.Params) (σ : System), σ.move p .reset = some { σ with phase := .fresh, core := State.reset }) ∧
  ∀ (p : Config.Params) (m : Move) (σ τ : System), σ.core.status ≠ .running → σ.move p m = some τ →
    τ.core.status = .running → m = .reset

/-- The reset state meets the invariant. -/
def Obligations.ResetMeetsTheInvariant : Prop := State.reset.Inv

/-- Every cycle, from every state that meets the invariant, leaves a state that meets it: canonical memory, pc at most 4096
(R28), I at most 0xFFF (R29), and a FATAL record the core can make (R136, R152, R154). -/
def Obligations.EveryStepKeepsTheInvariant : Prop :=
  ∀ s t : State, s.Inv → step s = .next t → t.Inv

/-- Every move of engine or host keeps the invariant of the core (R165). -/
def Obligations.EveryMoveKeepsTheInvariant : Prop :=
  ∀ (p : Config.Params) (m : Move) (σ τ : System), σ.core.Inv → σ.move p m = some τ → τ.core.Inv

/-- In every system that any schedule of cycles and host actions reaches, with any image: pc is at most 4096, I is at most
0xFFF, the stack is all zero with SP = 0, the reserved range reads zero, and an offending address is below 2^16 (R28, R29, R30,
R38, R51). -/
def Obligations.ReachableStatesKeepTheirRanges : Prop :=
  ∀ (p : Config.Params) (σ : System), Reachable p σ →
    σ.core.pc.toNat ≤ 4096 ∧ σ.core.i.toNat ≤ 0xFFF ∧ σ.core.sp = 0 ∧ (∀ k : Fin 16, σ.core.stack.get k = 0) ∧
    (∀ a : Nat, a < 0x200 → σ.core.readByte a = 0) ∧
    (∀ (k : FatalKind) (q : Word) (a : Nat), σ.core.status = .halted k q a → a < 2 ^ 16)

/-- Every fetch of every run reads the launch image (R62). No move but a reset or a load writes memory. From a system's first
cycle on, no schedule without a reset writes memory or may load an image. After the LoadImage of an accepted image, whatever follows but a reset, memory is that image from
0x200 on with zeros around it: from boot, and from every reset with any host actions before the load. And every reachable
system in which a cycle may run came by such a load. The launch bytes are R183's; that LoadImage is enabled once after a reset
and a cycle only after a successful LoadImage is the model's inference (notes/assumptions/10.md, DEDUCED). -/
def Obligations.RunsReadTheLaunchImage : Prop :=
  (∀ (p : Config.Params) (m : Move) (σ τ : System), σ.move p m = some τ → m ≠ .reset →
    (∀ image : List Byte, m ≠ .loadImage image) → SameMemory σ.core τ.core) ∧
  (∀ (p : Config.Params) (ms : List Move) (σ τ : System), σ.run p (.cycle :: ms) = some τ → .reset ∉ ms →
    SameMemory σ.core τ.core ∧ ∀ image : List Byte, τ.move p (.loadImage image) = none) ∧
  (∀ (p : Config.Params) (image : List Byte) (ms : List Move) (τ : System), Accepted p image → .reset ∉ ms →
    System.boot.run p (.loadImage image :: ms) = some τ → ∀ a : Nat, τ.core.readByte a = launchByte image a) ∧
  (∀ (p : Config.Params) (image : List Byte) (before ms : List Move) (ρ τ : System), AfterReset p ρ → Accepted p image →
    .reset ∉ before → .reset ∉ ms → ρ.run p (before ++ .loadImage image :: ms) = some τ →
    ∀ a : Nat, τ.core.readByte a = launchByte image a) ∧
  ∀ (p : Config.Params) (σ τ : System), Reachable p σ → σ.move p .cycle = some τ →
    ∃ (image : List Byte) (before ms : List Move) (ρ : System), AfterReset p ρ ∧ Accepted p image ∧
      .reset ∉ before ∧ .reset ∉ ms ∧ ρ.run p (before ++ .loadImage image :: ms) = some σ

/-- A HALTED record is never overwritten except by reset, whatever else the host does (R156). -/
def Obligations.FirstFatalRecordStaysUntilReset : Prop :=
  ∀ (p : Config.Params) (ms : List Move) (σ τ : System) (k : FatalKind) (q : Word) (a : Nat),
    σ.core.status = .halted k q a → .reset ∉ ms → σ.run p ms = some τ → τ.core.status = .halted k q a

/-! ### The host's actions (spec/60_exceptions.md) -/

/-- Stop makes RUNNING STOPPED and changes nothing else; in another status it changes nothing; the stop move of every system
is that action; STOPPED takes no cycle and only reset leaves it (R173). -/
def Obligations.StopEndsTheRunUntilReset : Prop :=
  (∀ s : State, s.status = .running → stopAction s = { s with status := .stopped }) ∧
  (∀ s : State, s.status ≠ .running → stopAction s = s) ∧
  (∀ (p : Config.Params) (σ : System), σ.move p .stop = some { σ with core := stopAction σ.core }) ∧
  (∀ s t : State, s.status = .stopped → step s ≠ .next t) ∧
  ∀ (p : Config.Params) (m : Move) (σ τ : System), σ.core.status = .stopped → σ.move p m = some τ → m ≠ .reset →
    τ.core.status = .stopped

/-- A timer tick takes 1 from each timer above 0, leaves a timer at 0 there, and changes nothing else in any status (R171). -/
def Obligations.TimerTickCountsDownToZero : Prop :=
  ∀ s : State, (timerTick s).dt.toNat = s.dt.toNat - 1 ∧ (timerTick s).st.toNat = s.st.toNat - 1 ∧
    timerTick s = { s with dt := (timerTick s).dt, st := (timerTick s).st } ∧
    ∀ (p : Config.Params) (σ : System), σ.move p .timerTick = some { σ with core := timerTick σ.core }

/-- SetKey writes one latch and changes nothing else (R172). -/
def Obligations.SetKeyWritesOneLatch : Prop :=
  ∀ (k : Key) (v : Bool) (s : State), (setKey k v s).keys.get k = v ∧
    (∀ j : Key, j ≠ k → (setKey k v s).keys.get j = s.keys.get j) ∧
    setKey k v s = { s with keys := (setKey k v s).keys } ∧
    ∀ (p : Config.Params) (σ : System), σ.move p (.setKey k v) = some { σ with core := setKey k v σ.core }

/-- AckDisplay clears dirty and changes nothing else, and is the acknowledge move of every system (R170). That the move is
permitted in every status and phase is the model's inference (notes/assumptions/6.md, DEDUCED). -/
def Obligations.AckDisplayClearsDirtyOnly : Prop :=
  (∀ s : State, ackDisplay s = { s with dirty := false }) ∧
  ∀ (p : Config.Params) (σ : System), σ.move p .ackDisplay = some { σ with core := ackDisplay σ.core }

/-- LoadImage copies the image to 0x200 onward, drops or refuses what does not fit as LOAD_POLICY says, writes no other byte
and no other field; after a refusal the core is as before and no cycle runs; from the first cycle until the next reset it is
not permitted, and nothing writes memory (R168). -/
def Obligations.LoadImageCopiesTheProgram : Prop :=
  (∀ (q : Config.LoadPolicy) (b : List Byte) (s : State), s.mem.wf →
    ((3584 < b.length ∧ q = .failLoadTooLarge) → loadImage q b s = .loadTooLarge) ∧
    (¬ (3584 < b.length ∧ q = .failLoadTooLarge) → ∃ t : State, loadImage q b s = .loaded t ∧
      (∀ j : Nat, j < min b.length 3584 → b[j]? = some (t.readByte (0x200 + j))) ∧
      (∀ a : Nat, a < 0x200 ∨ 0x200 + min b.length 3584 ≤ a → t.readByte a = s.readByte a) ∧
      t = { s with mem := t.mem })) ∧
  (∀ (p : Config.Params) (b : List Byte) (σ τ : System), 3584 < b.length ∧ p.loadPolicy = .failLoadTooLarge →
    σ.move p (.loadImage b) = some τ → τ.core = σ.core ∧ τ.move p .cycle = none) ∧
  ∀ (p : Config.Params) (b : List Byte) (ms : List Move) (σ τ : System), σ.run p (.cycle :: ms) = some τ → .reset ∉ ms →
    SameMemory σ.core τ.core ∧ τ.move p (.loadImage b) = none

/-- The launch state of an image is the reset state with the image from 0x200 onward; there is none, and no cycle runs, when
the policy refuses the image (R183). The launch phase beside the state is the model's host bookkeeping
(notes/assumptions/10.md, DEDUCED). -/
def Obligations.LaunchStateIsResetWithTheImage : Prop :=
  ∀ (p : Config.Params) (b : List Byte),
    ((3584 < b.length ∧ p.loadPolicy = .failLoadTooLarge) →
      launchState p.loadPolicy b = none ∧
      ∃ τ : System, System.boot.move p (.loadImage b) = some τ ∧ τ.core = State.reset ∧ τ.move p .cycle = none) ∧
    (¬ (3584 < b.length ∧ p.loadPolicy = .failLoadTooLarge) → ∃ t : State, launchState p.loadPolicy b = some t ∧
      System.boot.move p (.loadImage b) = some ⟨.launched, t, []⟩ ∧
      t = { State.reset with mem := t.mem } ∧
      ∀ a : Nat, t.readByte a =
        if 0x200 ≤ a ∧ a < 0x200 + min b.length 3584 then (b[a - 0x200]?).getD 0 else 0)

/-- A launched cycle adds one report to the log exactly when its word is UNHANDLED, with its address and word (R97, R165). That the sink is a list
beside the core is the model's choice (notes/assumptions/2.md). -/
def Obligations.EveryUnhandledCycleIsLogged : Prop :=
  ∀ (p : Config.Params) (σ τ : System), σ.move p .cycle = some τ →
    (∀ w : Word, σ.core.pc.toNat ≤ 4094 → decode σ.core.fetchWord = .unhandled w →
      τ.reports = σ.reports ++ [⟨σ.core.pc, w⟩]) ∧
    ((4094 < σ.core.pc.toNat ∨ ∀ w : Word, decode σ.core.fetchWord ≠ .unhandled w) → τ.reports = σ.reports)

/-- The outputs the host reads change no state, and the sound output is ST ≠ 0 (R169, R174, R175). -/
def Obligations.HostReadsChangeNothing : Prop :=
  (∀ (p : Config.Params) (σ : System), σ.move p .readDisplay = some σ) ∧
  ∀ s : State, readDisplay s = (s.display, s.dirty) ∧ (soundActive s = true ↔ s.st ≠ 0) ∧ statusOutput s = s.status

/-! ### Isolation -/

/-- No instruction reads the timers, the latches or the stack: with other values there, a cycle has the same outcome but for
those values, and the same report (R30, R33, R34). -/
def Obligations.PeripheralsDoNotInfluenceACycle : Prop :=
  ∀ (s : State) (dt st : Byte) (keys : Vector Bool 16) (stack : Vector Word 16) (sp : Fin 17),
    step (s.withPeripherals dt st keys stack sp) =
      mapNext (fun t => t.withPeripherals dt st keys stack sp) (step s) ∧
    cycleReport (s.withPeripherals dt st keys stack sp) = cycleReport s

/-- A timer tick or a key change before a cycle gives what it gives after the cycle, so their place between two cycles
decides nothing (R34, R172, R177). -/
def Obligations.TicksAndKeysCommuteWithCycles : Prop :=
  ∀ s : State, step (timerTick s) = mapNext timerTick (step s) ∧
    ∀ (k : Key) (v : Bool), step (setKey k v s) = mapNext (setKey k v) (step s)

/-! ### The stack primitives (spec/10_state.md), called by no instruction in scope -/

/-- StackPush (R31): the entry and the count it writes, and the condition it raises on a full stack, as the model's primitive
answers it (notes/assumptions/14.md). -/
def Obligations.StackPushWritesTheNextEntry : Prop :=
  ∀ (a : Word) (s : State),
    (s.sp.val = 16 → stackPush a s = .error ⟨.stackOverflow, 16⟩) ∧
    (s.sp.val ≠ 16 → ∃ t : State, stackPush a s = .ok t ∧ t.sp.val = s.sp.val + 1 ∧
      (∀ k : Fin 16, t.stack.get k = if k.val = s.sp.val then a else s.stack.get k) ∧
      t = { s with stack := t.stack, sp := t.sp })

/-- StackPop (R32): the entry it returns and the count it writes, and the condition it raises on an empty stack, as the model's
primitive answers it (notes/assumptions/14.md). -/
def Obligations.StackPopReturnsTheNewestEntry : Prop :=
  ∀ s : State,
    (s.sp.val = 0 → stackPop s = .error ⟨.stackUnderflow, 0⟩) ∧
    (∀ k : Fin 16, s.sp.val = k.val + 1 → ∃ t : State, stackPop s = .ok (t, s.stack.get k) ∧ t.sp.val = k.val ∧
      t = { s with sp := t.sp })

/-- A pop after a push that did not overflow returns what was pushed and leaves SP and the entries in use as before
(R31, R32). -/
def Obligations.PopAfterPushReturnsThePushed : Prop :=
  ∀ (a : Word) (s : State), s.sp.val < 16 → ∃ t u : State, stackPush a s = .ok t ∧ stackPop t = .ok (u, a) ∧
    u.sp = s.sp ∧ (∀ k : Fin 16, k.val < s.sp.val → u.stack.get k = s.stack.get k) ∧
    u = { s with stack := u.stack }

/-! ### The invariant of a system -/

/-- The system right after reset meets the system invariant. -/
def Obligations.BootMeetsTheSystemInvariant : Prop := System.boot.Inv

/-- Every move of engine or host, from every system that meets the invariant, leaves one that meets it: the core's invariant,
SP = 0 and an all-zero stack (R30), a zero reserved range (R51), and blank memory before a launch (R168); the launch phase is
the model's host bookkeeping (notes/assumptions/10.md, DEDUCED). -/
def Obligations.EveryMoveKeepsTheSystemInvariant : Prop :=
  ∀ (p : Config.Params) (m : Move) (σ τ : System), σ.Inv → σ.move p m = some τ → τ.Inv
end

