-- ==== Sys2Proof/Laws/Decode.lean ====
section
/-! SUPPORT. The fields of a word that is written as its bit picture (spec/30_encoding.md R71), and the bytes of a word. -/

namespace Sys2Proof

@[simp] theorem regBits_toFin (r : Reg) : (regBits r).toFin = r := rfl

/-! ### class || NNN -/

@[simp] theorem classField_nnn (c : BitVec 4) (nnn : BitVec 12) : classField (c ++ nnn) = c := by
  change BitVec.extractLsb' 12 4 (c ++ nnn : BitVec (4 + 12)) = c
  ext j hj
  simp only [BitVec.getElem_extractLsb', BitVec.getLsbD_append]
  interval_cases j <;> rfl
@[simp] theorem nnnField_nnn (c : BitVec 4) (nnn : BitVec 12) : nnnField (c ++ nnn) = nnn := by
  change BitVec.extractLsb' 0 12 (c ++ nnn : BitVec (4 + 12)) = nnn
  ext j hj
  simp only [BitVec.getElem_extractLsb', BitVec.getLsbD_append]
  interval_cases j <;> rfl

/-! ### class || X || NN -/

@[simp] theorem classField_xnn (c x : BitVec 4) (nn : BitVec 8) : classField (c ++ x ++ nn) = c := by
  change BitVec.extractLsb' 12 4 (c ++ x ++ nn : BitVec (4 + 4 + 8)) = c
  ext j hj
  simp only [BitVec.getElem_extractLsb', BitVec.getLsbD_append]
  interval_cases j <;> rfl
@[simp] theorem xField_xnn (c x : BitVec 4) (nn : BitVec 8) : xField (c ++ x ++ nn) = x.toFin := by
  change (BitVec.extractLsb' 8 4 (c ++ x ++ nn : BitVec (4 + 4 + 8))).toFin = x.toFin
  congr 1
  ext j hj
  simp only [BitVec.getElem_extractLsb', BitVec.getLsbD_append]
  interval_cases j <;> rfl
@[simp] theorem nnField_xnn (c x : BitVec 4) (nn : BitVec 8) : nnField (c ++ x ++ nn) = nn := by
  change BitVec.extractLsb' 0 8 (c ++ x ++ nn : BitVec (4 + 4 + 8)) = nn
  ext j hj
  simp only [BitVec.getElem_extractLsb', BitVec.getLsbD_append]
  interval_cases j <;> rfl

/-! ### class || X || Y || N -/

@[simp] theorem classField_xyn (c x y n : BitVec 4) : classField (c ++ x ++ y ++ n) = c := by
  change BitVec.extractLsb' 12 4 (c ++ x ++ y ++ n : BitVec (4 + 4 + 4 + 4)) = c
  ext j hj
  simp only [BitVec.getElem_extractLsb', BitVec.getLsbD_append]
  interval_cases j <;> rfl
@[simp] theorem xField_xyn (c x y n : BitVec 4) : xField (c ++ x ++ y ++ n) = x.toFin := by
  change (BitVec.extractLsb' 8 4 (c ++ x ++ y ++ n : BitVec (4 + 4 + 4 + 4))).toFin = x.toFin
  congr 1
  ext j hj
  simp only [BitVec.getElem_extractLsb', BitVec.getLsbD_append]
  interval_cases j <;> rfl
@[simp] theorem yField_xyn (c x y n : BitVec 4) : yField (c ++ x ++ y ++ n) = y.toFin := by
  change (BitVec.extractLsb' 4 4 (c ++ x ++ y ++ n : BitVec (4 + 4 + 4 + 4))).toFin = y.toFin
  congr 1
  ext j hj
  simp only [BitVec.getElem_extractLsb', BitVec.getLsbD_append]
  interval_cases j <;> rfl
@[simp] theorem nField_xyn (c x y n : BitVec 4) : nField (c ++ x ++ y ++ n) = n := by
  change BitVec.extractLsb' 0 4 (c ++ x ++ y ++ n : BitVec (4 + 4 + 4 + 4)) = n
  ext j hj
  simp only [BitVec.getElem_extractLsb', BitVec.getLsbD_append]
  interval_cases j <;> rfl

/-! ### Bytes -/

/-- Storing a word high byte first and fetching it big-endian gives the word back (R52). -/
@[simp] theorem wordOf_bytes (w : Word) : wordOf (highByte w) (lowByte w) = w := by
  change (BitVec.extractLsb' 8 8 w ++ BitVec.extractLsb' 0 8 w : BitVec (8 + 8)) = w
  ext j hj
  simp only [BitVec.getElem_append, BitVec.getElem_extractLsb', Nat.zero_add]
  split
  · exact (BitVec.getLsbD_eq_getElem hj)
  · rw [show 8 + (j - 8) = j by omega]; exact BitVec.getLsbD_eq_getElem hj

/-- w = B0 * 256 + B1 (R52). -/
theorem wordOf_toNat (b0 b1 : Byte) : (wordOf b0 b1).toNat = b0.toNat * 256 + b1.toNat := by
  change (b0 ++ b1 : BitVec (8 + 8)).toNat = _
  rw [BitVec.toNat_append, ← Nat.shiftLeft_add_eq_or_of_lt b1.isLt, Nat.shiftLeft_eq]

/-- The decoder on the bytes of a word in memory order. -/
theorem decodeBytes_word (w : Word) (rest : List Byte) :
    decodeBytes (highByte w :: lowByte w :: rest) = .ok (decode w, rest) := by
  simp [decodeBytes]

/-- A table word of 16 bits is decoded as that word. -/
theorem decodeTableWord_eq (nbits w : Nat) : decodeTableWord nbits w = some (decode (tableWord nbits w)) := by
  simp [decodeTableWord, decodeBytes_word]

end Sys2Proof
end

