-- ==== Sys2Proof/Laws/State.lean ====
section
/-! SUPPORT. One lemma per field per update of State, each true by unfolding, so that no later proof unfolds a record update;
and the fields of the reset state. -/

namespace Sys2Proof.Machine

/-! ### advance -/

@[simp] theorem advance_mem (s : State) : (s.advance).mem = s.mem := rfl
@[simp] theorem advance_v (s : State) : (s.advance).v = s.v := rfl
@[simp] theorem advance_i (s : State) : (s.advance).i = s.i := rfl
@[simp] theorem advance_pc (s : State) : (s.advance).pc = s.pc + 2 := rfl
@[simp] theorem advance_stack (s : State) : (s.advance).stack = s.stack := rfl
@[simp] theorem advance_sp (s : State) : (s.advance).sp = s.sp := rfl
@[simp] theorem advance_dt (s : State) : (s.advance).dt = s.dt := rfl
@[simp] theorem advance_st (s : State) : (s.advance).st = s.st := rfl
@[simp] theorem advance_keys (s : State) : (s.advance).keys = s.keys := rfl
@[simp] theorem advance_display (s : State) : (s.advance).display = s.display := rfl
@[simp] theorem advance_dirty (s : State) : (s.advance).dirty = s.dirty := rfl
@[simp] theorem advance_status (s : State) : (s.advance).status = s.status := rfl

/-! ### takeFatal -/

@[simp] theorem takeFatal_mem (p : Word) (f : Fatal) (s : State) : (takeFatal p f s).mem = s.mem := rfl
@[simp] theorem takeFatal_v (p : Word) (f : Fatal) (s : State) : (takeFatal p f s).v = s.v := rfl
@[simp] theorem takeFatal_i (p : Word) (f : Fatal) (s : State) : (takeFatal p f s).i = s.i := rfl
@[simp] theorem takeFatal_pc (p : Word) (f : Fatal) (s : State) : (takeFatal p f s).pc = p := rfl
@[simp] theorem takeFatal_stack (p : Word) (f : Fatal) (s : State) : (takeFatal p f s).stack = s.stack := rfl
@[simp] theorem takeFatal_sp (p : Word) (f : Fatal) (s : State) : (takeFatal p f s).sp = s.sp := rfl
@[simp] theorem takeFatal_dt (p : Word) (f : Fatal) (s : State) : (takeFatal p f s).dt = s.dt := rfl
@[simp] theorem takeFatal_st (p : Word) (f : Fatal) (s : State) : (takeFatal p f s).st = s.st := rfl
@[simp] theorem takeFatal_keys (p : Word) (f : Fatal) (s : State) : (takeFatal p f s).keys = s.keys := rfl
@[simp] theorem takeFatal_display (p : Word) (f : Fatal) (s : State) : (takeFatal p f s).display = s.display := rfl
@[simp] theorem takeFatal_dirty (p : Word) (f : Fatal) (s : State) : (takeFatal p f s).dirty = s.dirty := rfl
@[simp] theorem takeFatal_status (p : Word) (f : Fatal) (s : State) : (takeFatal p f s).status = .halted f.kind p f.addr := rfl

/-! ### writeReg -/

@[simp] theorem writeReg_mem (s : State) (r : Reg) (b : Byte) : (s.writeReg r b).mem = s.mem := rfl
@[simp] theorem writeReg_v (s : State) (r : Reg) (b : Byte) : (s.writeReg r b).v = s.v.set r.val b r.isLt := rfl
@[simp] theorem writeReg_i (s : State) (r : Reg) (b : Byte) : (s.writeReg r b).i = s.i := rfl
@[simp] theorem writeReg_pc (s : State) (r : Reg) (b : Byte) : (s.writeReg r b).pc = s.pc := rfl
@[simp] theorem writeReg_stack (s : State) (r : Reg) (b : Byte) : (s.writeReg r b).stack = s.stack := rfl
@[simp] theorem writeReg_sp (s : State) (r : Reg) (b : Byte) : (s.writeReg r b).sp = s.sp := rfl
@[simp] theorem writeReg_dt (s : State) (r : Reg) (b : Byte) : (s.writeReg r b).dt = s.dt := rfl
@[simp] theorem writeReg_st (s : State) (r : Reg) (b : Byte) : (s.writeReg r b).st = s.st := rfl
@[simp] theorem writeReg_keys (s : State) (r : Reg) (b : Byte) : (s.writeReg r b).keys = s.keys := rfl
@[simp] theorem writeReg_display (s : State) (r : Reg) (b : Byte) : (s.writeReg r b).display = s.display := rfl
@[simp] theorem writeReg_dirty (s : State) (r : Reg) (b : Byte) : (s.writeReg r b).dirty = s.dirty := rfl
@[simp] theorem writeReg_status (s : State) (r : Reg) (b : Byte) : (s.writeReg r b).status = s.status := rfl

/-! ### writeCollision -/

@[simp] theorem writeCollision_mem (s : State) (h : Bool) : (s.writeCollision h).mem = s.mem := rfl
@[simp] theorem writeCollision_v (s : State) (h : Bool) : (s.writeCollision h).v = s.v.set 15 (collisionFlag h) (by decide) := rfl
@[simp] theorem writeCollision_i (s : State) (h : Bool) : (s.writeCollision h).i = s.i := rfl
@[simp] theorem writeCollision_pc (s : State) (h : Bool) : (s.writeCollision h).pc = s.pc := rfl
@[simp] theorem writeCollision_stack (s : State) (h : Bool) : (s.writeCollision h).stack = s.stack := rfl
@[simp] theorem writeCollision_sp (s : State) (h : Bool) : (s.writeCollision h).sp = s.sp := rfl
@[simp] theorem writeCollision_dt (s : State) (h : Bool) : (s.writeCollision h).dt = s.dt := rfl
@[simp] theorem writeCollision_st (s : State) (h : Bool) : (s.writeCollision h).st = s.st := rfl
@[simp] theorem writeCollision_keys (s : State) (h : Bool) : (s.writeCollision h).keys = s.keys := rfl
@[simp] theorem writeCollision_display (s : State) (h : Bool) : (s.writeCollision h).display = s.display := rfl
@[simp] theorem writeCollision_dirty (s : State) (h : Bool) : (s.writeCollision h).dirty = s.dirty := rfl
@[simp] theorem writeCollision_status (s : State) (h : Bool) : (s.writeCollision h).status = s.status := rfl

/-! ### withFetchWord -/

@[simp] theorem withFetchWord_mem (s : State) (n w : Nat) : (s.withFetchWord n w).mem =
    s.mem.writeBytes s.pc.toNat [highByte (tableWord n w), lowByte (tableWord n w)] := rfl
@[simp] theorem withFetchWord_v (s : State) (n w : Nat) : (s.withFetchWord n w).v = s.v := rfl
@[simp] theorem withFetchWord_i (s : State) (n w : Nat) : (s.withFetchWord n w).i = s.i := rfl
@[simp] theorem withFetchWord_pc (s : State) (n w : Nat) : (s.withFetchWord n w).pc = s.pc := rfl
@[simp] theorem withFetchWord_stack (s : State) (n w : Nat) : (s.withFetchWord n w).stack = s.stack := rfl
@[simp] theorem withFetchWord_sp (s : State) (n w : Nat) : (s.withFetchWord n w).sp = s.sp := rfl
@[simp] theorem withFetchWord_dt (s : State) (n w : Nat) : (s.withFetchWord n w).dt = s.dt := rfl
@[simp] theorem withFetchWord_st (s : State) (n w : Nat) : (s.withFetchWord n w).st = s.st := rfl
@[simp] theorem withFetchWord_keys (s : State) (n w : Nat) : (s.withFetchWord n w).keys = s.keys := rfl
@[simp] theorem withFetchWord_display (s : State) (n w : Nat) : (s.withFetchWord n w).display = s.display := rfl
@[simp] theorem withFetchWord_dirty (s : State) (n w : Nat) : (s.withFetchWord n w).dirty = s.dirty := rfl
@[simp] theorem withFetchWord_status (s : State) (n w : Nat) : (s.withFetchWord n w).status = s.status := rfl

/-! ### ackDisplay -/

@[simp] theorem ackDisplay_mem (s : State) : (ackDisplay s).mem = s.mem := rfl
@[simp] theorem ackDisplay_v (s : State) : (ackDisplay s).v = s.v := rfl
@[simp] theorem ackDisplay_i (s : State) : (ackDisplay s).i = s.i := rfl
@[simp] theorem ackDisplay_pc (s : State) : (ackDisplay s).pc = s.pc := rfl
@[simp] theorem ackDisplay_stack (s : State) : (ackDisplay s).stack = s.stack := rfl
@[simp] theorem ackDisplay_sp (s : State) : (ackDisplay s).sp = s.sp := rfl
@[simp] theorem ackDisplay_dt (s : State) : (ackDisplay s).dt = s.dt := rfl
@[simp] theorem ackDisplay_st (s : State) : (ackDisplay s).st = s.st := rfl
@[simp] theorem ackDisplay_keys (s : State) : (ackDisplay s).keys = s.keys := rfl
@[simp] theorem ackDisplay_display (s : State) : (ackDisplay s).display = s.display := rfl
@[simp] theorem ackDisplay_dirty (s : State) : (ackDisplay s).dirty = false := rfl
@[simp] theorem ackDisplay_status (s : State) : (ackDisplay s).status = s.status := rfl

/-! ### timerTick -/

@[simp] theorem timerTick_mem (s : State) : (timerTick s).mem = s.mem := rfl
@[simp] theorem timerTick_v (s : State) : (timerTick s).v = s.v := rfl
@[simp] theorem timerTick_i (s : State) : (timerTick s).i = s.i := rfl
@[simp] theorem timerTick_pc (s : State) : (timerTick s).pc = s.pc := rfl
@[simp] theorem timerTick_stack (s : State) : (timerTick s).stack = s.stack := rfl
@[simp] theorem timerTick_sp (s : State) : (timerTick s).sp = s.sp := rfl
@[simp] theorem timerTick_dt (s : State) : (timerTick s).dt = countDown s.dt := rfl
@[simp] theorem timerTick_st (s : State) : (timerTick s).st = countDown s.st := rfl
@[simp] theorem timerTick_keys (s : State) : (timerTick s).keys = s.keys := rfl
@[simp] theorem timerTick_display (s : State) : (timerTick s).display = s.display := rfl
@[simp] theorem timerTick_dirty (s : State) : (timerTick s).dirty = s.dirty := rfl
@[simp] theorem timerTick_status (s : State) : (timerTick s).status = s.status := rfl

/-! ### setKey -/

@[simp] theorem setKey_mem (k : Key) (b : Bool) (s : State) : (setKey k b s).mem = s.mem := rfl
@[simp] theorem setKey_v (k : Key) (b : Bool) (s : State) : (setKey k b s).v = s.v := rfl
@[simp] theorem setKey_i (k : Key) (b : Bool) (s : State) : (setKey k b s).i = s.i := rfl
@[simp] theorem setKey_pc (k : Key) (b : Bool) (s : State) : (setKey k b s).pc = s.pc := rfl
@[simp] theorem setKey_stack (k : Key) (b : Bool) (s : State) : (setKey k b s).stack = s.stack := rfl
@[simp] theorem setKey_sp (k : Key) (b : Bool) (s : State) : (setKey k b s).sp = s.sp := rfl
@[simp] theorem setKey_dt (k : Key) (b : Bool) (s : State) : (setKey k b s).dt = s.dt := rfl
@[simp] theorem setKey_st (k : Key) (b : Bool) (s : State) : (setKey k b s).st = s.st := rfl
@[simp] theorem setKey_keys (k : Key) (b : Bool) (s : State) : (setKey k b s).keys = s.keys.set k.val b k.isLt := rfl
@[simp] theorem setKey_display (k : Key) (b : Bool) (s : State) : (setKey k b s).display = s.display := rfl
@[simp] theorem setKey_dirty (k : Key) (b : Bool) (s : State) : (setKey k b s).dirty = s.dirty := rfl
@[simp] theorem setKey_status (k : Key) (b : Bool) (s : State) : (setKey k b s).status = s.status := rfl

/-! ### Reads that look at one field -/

@[simp] theorem advance_readByte (s : State) (a : Nat) : (s.advance).readByte a = s.readByte a := rfl
@[simp] theorem advance_readReg (s : State) (q : Reg) : (s.advance).readReg q = s.readReg q := rfl
@[simp] theorem advance_pixel (s : State) (x : Column) (y : Row) : (s.advance).pixel x y = s.pixel x y := rfl
@[simp] theorem takeFatal_readByte (p : Word) (f : Fatal) (s : State) (a : Nat) : (takeFatal p f s).readByte a = s.readByte a := rfl
@[simp] theorem takeFatal_readReg (p : Word) (f : Fatal) (s : State) (q : Reg) : (takeFatal p f s).readReg q = s.readReg q := rfl
@[simp] theorem takeFatal_pixel (p : Word) (f : Fatal) (s : State) (x : Column) (y : Row) : (takeFatal p f s).pixel x y = s.pixel x y := rfl
@[simp] theorem writeReg_readByte (s : State) (r : Reg) (b : Byte) (a : Nat) : (s.writeReg r b).readByte a = s.readByte a := rfl
@[simp] theorem writeReg_pixel (s : State) (r : Reg) (b : Byte) (x : Column) (y : Row) : (s.writeReg r b).pixel x y = s.pixel x y := rfl
@[simp] theorem writeCollision_readByte (s : State) (h : Bool) (a : Nat) : (s.writeCollision h).readByte a = s.readByte a := rfl
@[simp] theorem writeCollision_pixel (s : State) (h : Bool) (x : Column) (y : Row) : (s.writeCollision h).pixel x y = s.pixel x y := rfl
@[simp] theorem withFetchWord_readReg (s : State) (n w : Nat) (q : Reg) : (s.withFetchWord n w).readReg q = s.readReg q := rfl
@[simp] theorem withFetchWord_pixel (s : State) (n w : Nat) (x : Column) (y : Row) : (s.withFetchWord n w).pixel x y = s.pixel x y := rfl
@[simp] theorem ackDisplay_readByte (s : State) (a : Nat) : (ackDisplay s).readByte a = s.readByte a := rfl
@[simp] theorem ackDisplay_readReg (s : State) (q : Reg) : (ackDisplay s).readReg q = s.readReg q := rfl
@[simp] theorem ackDisplay_pixel (s : State) (x : Column) (y : Row) : (ackDisplay s).pixel x y = s.pixel x y := rfl
@[simp] theorem timerTick_readByte (s : State) (a : Nat) : (timerTick s).readByte a = s.readByte a := rfl
@[simp] theorem timerTick_readReg (s : State) (q : Reg) : (timerTick s).readReg q = s.readReg q := rfl
@[simp] theorem timerTick_pixel (s : State) (x : Column) (y : Row) : (timerTick s).pixel x y = s.pixel x y := rfl
@[simp] theorem setKey_readByte (k : Key) (b : Bool) (s : State) (a : Nat) : (setKey k b s).readByte a = s.readByte a := rfl
@[simp] theorem setKey_readReg (k : Key) (b : Bool) (s : State) (q : Reg) : (setKey k b s).readReg q = s.readReg q := rfl
@[simp] theorem setKey_pixel (k : Key) (b : Bool) (s : State) (x : Column) (y : Row) : (setKey k b s).pixel x y = s.pixel x y := rfl

/-- In the state a handler runs in, pc0 is the address the cycle fetched from (R27). -/
@[simp] theorem advance_pc0 (s : State) : s.advance.pc0 = s.pc := by
  simp [State.pc0, State.advance]

/-- The fetch bounds check as arithmetic (R91). -/
theorem canFetch_iff (s : State) : s.canFetch = true ↔ s.pc.toNat ≤ 4094 := by
  simp [State.canFetch]

/-- The advance does not wrap after a successful fetch (R93). -/
theorem advance_pc_toNat {s : State} (h : s.canFetch = true) : s.advance.pc.toNat = s.pc.toNat + 2 := by
  rw [canFetch_iff] at h
  rw [advance_pc, BitVec.toNat_add]
  exact Nat.mod_eq_of_lt (by simp; omega)

end Sys2Proof.Machine
end

