-- ==== Sys2Proof/Laws/Memory.lean ====
section
/-! SUPPORT. Memory: a read after a write, every operation keeps the canonical form, and canonical memories that read alike
are equal. -/

namespace Sys2Proof.Machine

/-- Below every listed address a memory is blank. -/
theorem read_of_lt {m : Memory} {k : Nat} (h : ∀ c ∈ m, k < c.1) : m.read k = blankByte := by
  induction m with
  | nil => rfl
  | cons c m ih =>
    have hk := h c (by simp)
    have hne : c.1 ≠ k := by omega
    simp only [Memory.read, hne, if_false]
    exact ih fun d hd => h d (by simp [hd])

/-- Every cell of `m.insert k b` is the new one or an old one. -/
theorem mem_insert {m : Memory} {k : Nat} {b : Byte} {c : Host.Cell} (h : c ∈ m.insert k b) :
    (c = (k, b) ∧ b ≠ blankByte) ∨ c ∈ m := by
  induction m with
  | nil =>
    simp only [Memory.insert] at h
    split at h <;> simp_all
  | cons d m ih =>
    simp only [Memory.insert] at h
    split_ifs at h with h1 h2 h3 h4
    · exact .inr h
    · exact (List.mem_cons.1 h).imp (⟨·, h2⟩) id
    · exact .inr (List.mem_cons_of_mem _ h)
    · exact (List.mem_cons.1 h).imp (⟨·, h4⟩) (List.mem_cons_of_mem _)
    · rcases List.mem_cons.1 h with rfl | h
      · exact .inr List.mem_cons_self
      · exact (ih h).imp id (List.mem_cons_of_mem _)

/-- An insertion inside memory keeps the canonical form. -/
theorem insert_wf {m : Memory} {k : Nat} {b : Byte} (h : m.wf) (hk : k < 4096) : (m.insert k b).wf := by
  induction m with
  | nil =>
    simp only [Memory.insert]
    split
    · exact h
    · rename_i hb
      simpa [Memory.wf, hb] using hk
  | cons d m ih =>
    obtain ⟨hp, hm⟩ := h
    rw [List.pairwise_cons] at hp
    have htail : Memory.wf m := ⟨hp.2, fun c hc => hm c (by simp [hc])⟩
    have hd := hm d (by simp)
    have hw : Memory.wf (d :: m) := ⟨List.pairwise_cons.2 hp, hm⟩
    simp only [Memory.insert]
    split_ifs with h1 h2 h3 h4
    · exact hw
    · refine ⟨List.pairwise_cons.2 ⟨?_, hw.1⟩, ?_⟩
      · intro c hc
        rcases List.mem_cons.1 hc with rfl | hc
        · exact h1
        · exact Nat.lt_trans h1 (hp.1 c hc)
      · intro c hc
        rcases List.mem_cons.1 hc with rfl | hc
        · exact ⟨hk, h2⟩
        · exact hm c hc
    · exact htail
    · subst h3
      refine ⟨List.pairwise_cons.2 ⟨hp.1, hp.2⟩, ?_⟩
      intro c hc
      rcases List.mem_cons.1 hc with rfl | hc
      · exact ⟨hk, h4⟩
      · exact htail.2 c hc
    · have hi := ih htail
      refine ⟨List.pairwise_cons.2 ⟨?_, hi.1⟩, ?_⟩
      · intro c hc
        rcases mem_insert hc with ⟨rfl, -⟩ | hc
        · simp only; omega
        · exact hp.1 c hc
      · intro c hc
        rcases List.mem_cons.1 hc with rfl | hc
        · exact hd
        · exact hi.2 c hc

/-- What an insertion into a canonical memory makes each address read as. -/
theorem read_insert {m : Memory} (h : m.wf) (k : Nat) (b : Byte) (a : Nat) :
    (m.insert k b).read a = if a = k then b else m.read a := by
  induction m with
  | nil =>
    simp only [Memory.insert]
    by_cases hb : b = blankByte <;> by_cases ha : a = k <;> simp [hb, ha, Memory.read, eq_comm (a := k)]
  | cons d m ih =>
    obtain ⟨hp, hm⟩ := h
    rw [List.pairwise_cons] at hp
    have htail : Memory.wf m := ⟨hp.2, fun c hc => hm c (by simp [hc])⟩
    have hlow : ∀ j, j ≤ d.1 → Memory.read m j = blankByte := fun j hj =>
      read_of_lt fun c hc => Nat.lt_of_le_of_lt hj (hp.1 c hc)
    rcases Nat.lt_trichotomy k d.1 with hk | rfl | hk
    · have hne : d.1 ≠ k := by omega
      by_cases hb : b = blankByte <;> by_cases ha : a = k <;>
        simp [Memory.insert, Memory.read, hk, hb, ha, hne, hlow k (by omega), eq_comm (a := k)]
    · by_cases hb : b = blankByte <;> by_cases ha : a = d.1 <;>
        simp [Memory.insert, Memory.read, hb, ha, hlow, eq_comm (a := d.1)]
    · have h1 : ¬ k < d.1 := by omega
      have h2 : k ≠ d.1 := by omega
      simp only [Memory.insert, h1, h2, if_false, Memory.read, ih htail]
      by_cases ha : d.1 = a
      · have : a ≠ k := by omega
        simp [ha, this]
      · simp [ha]

/-- Every write keeps the canonical form. -/
theorem write_wf {m : Memory} (h : m.wf) (k : Nat) (b : Byte) : (m.write k b).wf := by
  simp only [Memory.write, Config.memSize]
  split
  · exact insert_wf h ‹_›
  · exact h

/-- What a write makes each address read as. -/
theorem read_write {m : Memory} (h : m.wf) {k : Nat} (hk : k < 4096) (b : Byte) (a : Nat) :
    (m.write k b).read a = if a = k then b else m.read a := by
  simp only [Memory.write, Config.memSize, if_pos hk]
  exact read_insert h k b a

/-- Writing a list of bytes keeps the canonical form. -/
theorem writeBytes_wf {m : Memory} (h : m.wf) (k : Nat) (bs : List Byte) : (m.writeBytes k bs).wf := by
  induction bs generalizing m k with
  | nil => exact h
  | cons b bs ih => exact ih (write_wf h k b) (k + 1)

/-- What writing a list of bytes from `k` upward makes each address read as. -/
theorem read_writeBytes {m : Memory} (h : m.wf) {k : Nat} {bs : List Byte} (hk : k + bs.length ≤ 4096) (a : Nat) :
    (m.writeBytes k bs).read a = if k ≤ a then (bs[a - k]?).getD (m.read a) else m.read a := by
  induction bs generalizing m k with
  | nil => simp [Memory.writeBytes]
  | cons b bs ih =>
    simp only [List.length_cons] at hk
    simp only [Memory.writeBytes]
    rw [ih (write_wf h k b) (by omega), read_write h (by omega)]
    rcases Nat.lt_trichotomy a k with hlt | rfl | hgt
    · have h1 : ¬ k + 1 ≤ a := by omega
      have h2 : ¬ k ≤ a := by omega
      have h3 : a ≠ k := by omega
      simp [h1, h2, h3]
    · simp
    · have h1 : k + 1 ≤ a := by omega
      have h2 : k ≤ a := by omega
      have h3 : a ≠ k := by omega
      have h4 : a - k = (a - (k + 1)) + 1 := by omega
      simp [h1, h2, h3, h4]

/-- Canonical memories that read alike everywhere are the same list. -/
theorem memory_ext {m m' : Memory} (h : m.wf) (h' : m'.wf) (he : ∀ a, m.read a = m'.read a) : m = m' := by
  induction m generalizing m' with
  | nil =>
    cases m' with
    | nil => rfl
    | cons d m' =>
      have := he d.1
      simp only [Memory.read, if_true] at this
      exact absurd this.symm (h'.2 d (by simp)).2
  | cons c m ih =>
    cases m' with
    | nil =>
      have := he c.1
      simp only [Memory.read, if_true] at this
      exact absurd this (h.2 c (by simp)).2
    | cons d m' =>
      obtain ⟨hp, hm⟩ := h
      obtain ⟨hp', hm'⟩ := h'
      rw [List.pairwise_cons] at hp hp'
      have hc := he c.1
      have hd := he d.1
      have hkey : c.1 = d.1 := by
        rcases Nat.lt_trichotomy c.1 d.1 with hlt | heq | hgt
        · have hne : d.1 ≠ c.1 := by omega
          simp only [Memory.read, hne, if_true, if_false] at hc
          rw [read_of_lt fun e he => Nat.lt_trans hlt (hp'.1 e he)] at hc
          exact absurd hc (hm c (by simp)).2
        · exact heq
        · have hne : c.1 ≠ d.1 := by omega
          simp only [Memory.read, hne, if_true, if_false] at hd
          rw [read_of_lt fun e he => Nat.lt_trans hgt (hp.1 e he)] at hd
          exact absurd hd.symm (hm' d (by simp)).2
      have hval : c.2 = d.2 := by simpa [Memory.read, hkey] using hc
      have hcd : c = d := Prod.ext hkey hval
      subst hcd
      have htail : m = m' := by
        refine ih ⟨hp.2, fun e he => hm e (by simp [he])⟩ ⟨hp'.2, fun e he => hm' e (by simp [he])⟩ fun a => ?_
        by_cases ha : c.1 = a
        · subst ha
          rw [read_of_lt fun e he => hp.1 e he, read_of_lt fun e he => hp'.1 e he]
        · simpa [Memory.read, ha] using he a
      rw [htail]

end Sys2Proof.Machine
end

