-- ==== Sys2Proof/Laws/Operands.lean ====
section
/-! SUPPORT. Registers, the flag and the stack primitives. -/

namespace Sys2Proof.Machine

@[simp] theorem readReg_writeReg_same (s : State) (r : Reg) (b : Byte) : (s.writeReg r b).readReg r = b := by
  simp [State.readReg, State.writeReg, Vector.get_eq_getElem]

@[simp] theorem readReg_writeReg_other (s : State) {r q : Reg} (b : Byte) (h : q ≠ r) :
    (s.writeReg r b).readReg q = s.readReg q := by
  have hne : r.val ≠ q.val := fun e => h (Fin.ext e.symm)
  simp [State.readReg, State.writeReg, Vector.get_eq_getElem, hne]

@[simp] theorem readFlag_writeCollision (s : State) (h : Bool) : (s.writeCollision h).readFlag = collisionFlag h := by
  simp [State.readFlag, State.writeCollision]

@[simp] theorem readReg_writeCollision_other (s : State) {q : Reg} (h : Bool) (hq : q ≠ 15) :
    (s.writeCollision h).readReg q = s.readReg q :=
  readReg_writeReg_other s _ hq

@[simp] theorem collisionFlag_true : collisionFlag true = 1 := rfl
@[simp] theorem collisionFlag_false : collisionFlag false = 0 := rfl

/-- NNN is at most 0xFFF once zero-extended (R74). -/
theorem zext16_toNat (nnn : BitVec 12) : (zext16 nnn).toNat = nnn.toNat :=
  BitVec.toNat_setWidth_of_le (by decide)

theorem zext16_le (nnn : BitVec 12) : (zext16 nnn).toNat ≤ 0xFFF := by
  rw [zext16_toNat]; have := nnn.isLt; omega

/-- A push either raises STACK_OVERFLOW on a full stack or writes entry SP and counts it (R31). -/
theorem stackPush_cases (a : Word) (s : State) :
    (s.sp.val = 16 ∧ stackPush a s = .error ⟨.stackOverflow, 16⟩) ∨
    (∃ (h : s.sp.val < 16), stackPush a s =
      .ok { s with stack := s.stack.set s.sp.val a h, sp := ⟨s.sp.val + 1, by omega⟩ }) := by
  by_cases h : s.sp.val = 16
  · exact .inl ⟨h, by simp [stackPush, h]⟩
  · exact .inr ⟨by omega, by simp [stackPush, h]⟩

/-- A pop either raises STACK_UNDERFLOW on an empty stack or uncounts and returns the newest entry (R32). -/
theorem stackPop_cases (s : State) :
    (s.sp.val = 0 ∧ stackPop s = .error ⟨.stackUnderflow, 0⟩) ∨
    (∃ (h : s.sp.val - 1 < 16), s.sp.val ≠ 0 ∧
      stackPop s = .ok ({ s with sp := ⟨s.sp.val - 1, by omega⟩ }, s.stack[s.sp.val - 1]'h)) := by
  by_cases h : s.sp.val = 0
  · exact .inl ⟨h, by simp [stackPop, h]⟩
  · exact .inr ⟨by omega, h, by simp [stackPop, h]⟩

end Sys2Proof.Machine
end

