-- ==== Sys2Proof/Laws/Display.lean ====
section
/-! SUPPORT. The display: what one toggle, one sprite row and one whole sprite do to every pixel and to the collision flag. The
callers cite `plotSprite_pixel` and `plotSprite_collided` and unfold no loop. -/

namespace Sys2Proof.Machine

@[simp] theorem pixel_blank (x : Column) (y : Row) : Display.pixel Display.blank x y = false := by
  simp [Display.pixel, Display.blank, Vector.get_eq_getElem]

theorem pixel_toggle (d : Display) (x px : Column) (y py : Row) :
    (Display.toggle d x y).pixel px py = (Display.pixel d px py ^^ (decide (px = x) && decide (py = y))) := by
  by_cases hx : px = x
  · subst hx
    by_cases hy : py = y
    · subst hy
      simp [Display.pixel, Display.toggle, Vector.get_eq_getElem]
    · have hne : y.val ≠ py.val := fun e => hy (Fin.ext e.symm)
      simp [Display.pixel, Display.toggle, Vector.get_eq_getElem, hne, hy]
  · have hne : x.val ≠ px.val := fun e => hx (Fin.ext e.symm)
    simp [Display.pixel, Display.toggle, Vector.get_eq_getElem, hne, hx]

/-- Displays that show the same pixels are equal. -/
theorem display_ext {d e : Display} (h : ∀ x y, Display.pixel d x y = Display.pixel e x y) : d = e := by
  refine Vector.ext fun i hi => Vector.ext fun j hj => ?_
  simpa [Display.pixel, Vector.get_eq_getElem] using h ⟨i, hi⟩ ⟨j, hj⟩

/-! ### One row -/

/-- The first `m` column offsets of a row have a set pixel on column `px`. -/
def rowHits (ox : Nat) (b : Byte) (m : Nat) (px : Column) : Bool :=
  (List.range m).any fun c => spriteBit b c && decide (px = wrapColumn (ox + c))

/-- Eight column offsets land on eight different columns (R138). -/
theorem wrapColumn_inj {ox c d : Nat} (hc : c < 8) (hd : d < 8) (h : wrapColumn (ox + c) = wrapColumn (ox + d)) : c = d := by
  have := congrArg Fin.val h
  simp only [wrapColumn] at this
  omega

/-- Up to 32 row offsets land on different rows (R138). -/
theorem wrapRow_inj {oy r q : Nat} (hr : r < 32) (hq : q < 32) (h : wrapRow (oy + r) = wrapRow (oy + q)) : r = q := by
  have := congrArg Fin.val h
  simp only [wrapRow] at this
  omega

theorem rowHits_succ (ox : Nat) (b : Byte) (m : Nat) (px : Column) :
    rowHits ox b (m + 1) px = (rowHits ox b m px || (spriteBit b m && decide (px = wrapColumn (ox + m)))) := by
  simp [rowHits, List.range_succ]

theorem rowHits_iff (ox : Nat) (b : Byte) (m : Nat) (px : Column) :
    rowHits ox b m px = true ↔ ∃ c, c < m ∧ spriteBit b c = true ∧ px = wrapColumn (ox + c) := by
  simp [rowHits]

/-- The next column of a row is not hit by the columns before it. -/
theorem rowHits_next {ox m : Nat} (b : Byte) (hm : m < 8) : rowHits ox b m (wrapColumn (ox + m)) = false := by
  rw [Bool.eq_false_iff]
  intro h
  obtain ⟨c, hc, -, he⟩ := (rowHits_iff _ _ _ _).1 h
  have := wrapColumn_inj (by omega) (by omega) he
  omega

theorem plotRow_prefix (ox : Nat) (y : Row) (b : Byte) (k : Canvas) :
    ∀ m, m ≤ 8 →
      (∀ px py, ((List.range m).foldl (plotPixel ox y b) k).display.pixel px py =
        (k.display.pixel px py ^^ (decide (py = y) && rowHits ox b m px))) ∧
      ((List.range m).foldl (plotPixel ox y b) k).collided =
        (k.collided || (List.range m).any fun c => spriteBit b c && k.display.pixel (wrapColumn (ox + c)) y) := by
  intro m
  induction m with
  | zero => intro _; simp [rowHits]
  | succ m ih =>
    intro hm
    obtain ⟨hpix, hcol⟩ := ih (by omega)
    simp only [List.range_succ, List.foldl_append, List.foldl_cons, List.foldl_nil, List.any_append, List.any_cons,
      List.any_nil, Bool.or_false, rowHits_succ]
    generalize (List.range m).foldl (plotPixel ox y b) k = q at hpix hcol ⊢
    have hnext := rowHits_next (ox := ox) b (show m < 8 by omega)
    cases hb : spriteBit b m
    · simp [plotPixel, hb, hpix, hcol]
    · refine ⟨fun px py => ?_, ?_⟩
      · simp only [plotPixel, hb, if_true, Canvas.toggle, pixel_toggle, hpix, Bool.true_and]
        by_cases hx : px = wrapColumn (ox + m)
        · subst hx; simp [hnext]
        · simp [hx]
      · simp [plotPixel, hb, Canvas.toggle, hpix, hcol, hnext, Bool.or_assoc]

theorem plotRow_pixel (ox : Nat) (y : Row) (b : Byte) (k : Canvas) (px : Column) (py : Row) :
    (plotRow ox y b k).display.pixel px py = (k.display.pixel px py ^^ (decide (py = y) && rowHits ox b 8 px)) :=
  (plotRow_prefix ox y b k 8 (Nat.le_refl 8)).1 px py

theorem plotRow_collided (ox : Nat) (y : Row) (b : Byte) (k : Canvas) :
    (plotRow ox y b k).collided =
      (k.collided || (List.range 8).any fun c => spriteBit b c && k.display.pixel (wrapColumn (ox + c)) y) :=
  (plotRow_prefix ox y b k 8 (Nat.le_refl 8)).2

/-! ### A whole sprite -/

/-- The first `n` rows of the sprite have a set pixel on column `px`, row `py`. -/
def spriteHits (m : Memory) (base ox oy n : Nat) (px : Column) (py : Row) : Bool :=
  (List.range n).any fun r => decide (py = wrapRow (oy + r)) && rowHits ox (m.read (base + r)) 8 px

theorem spriteHits_iff (m : Memory) (base ox oy n : Nat) (px : Column) (py : Row) :
    spriteHits m base ox oy n px py = true ↔
      ∃ r c, r < n ∧ c < 8 ∧ px = wrapColumn (ox + c) ∧ py = wrapRow (oy + r) ∧ spriteBit (m.read (base + r)) c = true := by
  simp only [spriteHits, List.any_eq_true, List.mem_range, Bool.and_eq_true, decide_eq_true_eq, rowHits_iff]
  constructor
  · rintro ⟨r, hr, hy, c, hc, hb, hx⟩; exact ⟨r, c, hr, hc, hx, hy, hb⟩
  · rintro ⟨r, c, hr, hc, hx, hy, hb⟩; exact ⟨r, hr, hy, c, hc, hb, hx⟩

theorem plotSprite_prefix (m : Memory) (base ox oy : Nat) (k : Canvas) :
    ∀ n, n ≤ 32 →
      (∀ px py, (plotSprite m base ox oy n k).display.pixel px py =
        (k.display.pixel px py ^^ spriteHits m base ox oy n px py)) ∧
      (plotSprite m base ox oy n k).collided =
        (k.collided || (List.range n).any fun r => (List.range 8).any fun c =>
          spriteBit (m.read (base + r)) c && k.display.pixel (wrapColumn (ox + c)) (wrapRow (oy + r))) := by
  intro n
  induction n with
  | zero => intro _; simp [plotSprite, spriteHits]
  | succ n ih =>
    intro hn
    obtain ⟨hpix, hcol⟩ := ih (by omega)
    have hstep : plotSprite m base ox oy (n + 1) k =
        plotRow ox (wrapRow (oy + n)) (m.read (base + n)) (plotSprite m base ox oy n k) := by
      simp [plotSprite, List.range_succ]
    have hnext : ∀ px, spriteHits m base ox oy n px (wrapRow (oy + n)) = false := by
      intro px
      rw [Bool.eq_false_iff]
      intro h
      obtain ⟨r, _, hr, _, _, hy, _⟩ := (spriteHits_iff _ _ _ _ _ _ _).1 h
      have := wrapRow_inj (by omega) (by omega) hy
      omega
    have hsucc : ∀ px py, spriteHits m base ox oy (n + 1) px py =
        (spriteHits m base ox oy n px py || (decide (py = wrapRow (oy + n)) && rowHits ox (m.read (base + n)) 8 px)) := by
      intro px py; simp [spriteHits, List.range_succ]
    rw [hstep]
    refine ⟨fun px py => ?_, ?_⟩
    · rw [plotRow_pixel, hpix, hsucc]
      by_cases hy : py = wrapRow (oy + n)
      · subst hy; simp [hnext]
      · simp [hy]
    · rw [plotRow_collided, hcol]
      simp [hpix, hnext, List.range_succ (n := n), Bool.or_assoc]

/-- After a sprite of up to 15 rows, a pixel differs from before exactly when a set sprite pixel lands on it. -/
theorem plotSprite_pixel (m : Memory) (base ox oy : Nat) (n : BitVec 4) (k : Canvas) (px : Column) (py : Row) :
    (plotSprite m base ox oy n.toNat k).display.pixel px py =
      (k.display.pixel px py ^^ spriteHits m base ox oy n.toNat px py) :=
  (plotSprite_prefix m base ox oy k n.toNat (by omega)).1 px py

/-- After a sprite of up to 15 rows, the collision is set exactly when it was before or a set sprite pixel landed on a pixel
that was on. -/
theorem plotSprite_collided (m : Memory) (base ox oy : Nat) (n : BitVec 4) (k : Canvas) :
    (plotSprite m base ox oy n.toNat k).collided = true ↔
      k.collided = true ∨
        ∃ px py, spriteHits m base ox oy n.toNat px py = true ∧ k.display.pixel px py = true := by
  rw [(plotSprite_prefix m base ox oy k n.toNat (by omega)).2]
  simp only [Bool.or_eq_true, List.any_eq_true, List.mem_range, Bool.and_eq_true]
  refine or_congr_right ⟨?_, ?_⟩
  · rintro ⟨r, hr, c, hc, hb, hp⟩
    exact ⟨_, _, (spriteHits_iff _ _ _ _ _ _ _).2 ⟨r, c, hr, hc, rfl, rfl, hb⟩, hp⟩
  · rintro ⟨px, py, h, hp⟩
    obtain ⟨r, c, hr, hc, rfl, rfl, hb⟩ := (spriteHits_iff _ _ _ _ _ _ _).1 h
    exact ⟨r, hr, c, hc, hb, hp⟩

/-- The bounds check as the spec writes it (R136, R137). -/
theorem spriteInBounds_iff (base n : Nat) : spriteInBounds base n = true ↔ n = 0 ∨ base + n - 1 ≤ 4095 := by
  simp only [spriteInBounds, Config.memSize, Bool.or_eq_true, beq_iff_eq, decide_eq_true_eq]
  omega

end Sys2Proof.Machine
end

