-- ==== Sys2Proof/Laws/PerInstr.lean ====
section
/-! SUPPORT. Statements made per instruction, about the instruction as syntax. -/

namespace Sys2Proof.Laws.RowOfEncoding

/-- The table row a handled instruction belongs to (spec/30_encoding.md R72); none for UNHANDLED. -/
def rowOf : Instr → Option TableRow
  | .cls => some ⟨"CLS", 0x00E0, 0xFFFF⟩
  | .jp _ => some ⟨"JP", 0x1000, 0xF000⟩
  | .ld _ _ => some ⟨"LD", 0x6000, 0xF000⟩
  | .add _ _ => some ⟨"ADD", 0x7000, 0xF000⟩
  | .ldi _ => some ⟨"LDI", 0xA000, 0xF000⟩
  | .drw _ _ _ => some ⟨"DRW", 0xD000, 0xF000⟩
  | .unhandled _ => none

/-- The word of an instruction is selected by the instruction's own row of the dispatch table. -/
def Statement (i : Instr) : Prop :=
  ∀ row, rowOf i = some row → row ∈ dispatchTable ∧ row.selects (encode i) = true

/-- Masking with 0xF000 keeps the class nibble. -/
theorem mask_class (v : BitVec (4 + 12)) : v &&& (0xF#4 ++ 0#12) = v.extractLsb' 12 4 ++ 0#12 := by
  ext j hj
  simp only [BitVec.getElem_and, BitVec.getElem_append, BitVec.getElem_extractLsb']
  split
  · simp
  · rw [show 12 + (j - 12) = j by omega, BitVec.getLsbD_eq_getElem hj]
    have hones : ∀ k (hk : k < 4), (15#4)[k] = true := by decide
    simp [hones]

/-- A word whose class field is `c` matches the row of class `c`. -/
theorem selects_of_class {name : String} {c : BitVec 4} {w : Word} (h : classField w = c) :
    (TableRow.mk name (c ++ 0#12) 0xF000).selects w = true := by
  subst h
  exact beq_iff_eq.2 (mask_class w)

theorem cls : Statement .cls := by
  rintro _ ⟨⟩
  decide
theorem jp (nnn : BitVec 12) : Statement (.jp nnn) := by
  rintro _ ⟨⟩
  exact ⟨by decide, selects_of_class (c := 0x1) (classField_nnn _ _)⟩
theorem ld (x : Reg) (nn : Byte) : Statement (.ld x nn) := by
  rintro _ ⟨⟩
  exact ⟨by decide, selects_of_class (c := 0x6) (classField_xnn _ _ _)⟩
theorem add (x : Reg) (nn : Byte) : Statement (.add x nn) := by
  rintro _ ⟨⟩
  exact ⟨by decide, selects_of_class (c := 0x7) (classField_xnn _ _ _)⟩
theorem ldi (nnn : BitVec 12) : Statement (.ldi nnn) := by
  rintro _ ⟨⟩
  exact ⟨by decide, selects_of_class (c := 0xA) (classField_nnn _ _)⟩
theorem drw (x y : Reg) (n : BitVec 4) : Statement (.drw x y n) := by
  rintro _ ⟨⟩
  exact ⟨by decide, selects_of_class (c := 0xD) (classField_xyn _ _ _ _)⟩
theorem unhandled (w : Word) : Statement (.unhandled w) := by
  rintro _ ⟨⟩

end Sys2Proof.Laws.RowOfEncoding
end

