-- ==== Sys2Proof/Laws/Step.lean ====
section
/-! SUPPORT. What each handler, each host action and a step can do, said once; later proofs cite these and unfold no handler. -/

namespace Sys2Proof.Machine

@[simp] theorem exec_cls (s : State) :
    exec .cls s = .next { s with display := Display.blank, dirty := true } := rfl
@[simp] theorem exec_jp (nnn : BitVec 12) (s : State) : exec (.jp nnn) s = .next { s with pc := zext16 nnn } := rfl
@[simp] theorem exec_ld (x : Reg) (nn : Byte) (s : State) : exec (.ld x nn) s = .next (s.writeReg x nn) := rfl
@[simp] theorem exec_add (x : Reg) (nn : Byte) (s : State) :
    exec (.add x nn) s = .next (s.writeReg x (s.readReg x + nn)) := rfl
@[simp] theorem exec_ldi (nnn : BitVec 12) (s : State) : exec (.ldi nnn) s = .next { s with i := zext16 nnn } := rfl
@[simp] theorem exec_unhandled (w : Word) (s : State) : exec (.unhandled w) s = .next s := rfl

/-- The canvas a draw ends with. -/
def State.drawn (s : State) (x y : Reg) (n : BitVec 4) : Canvas :=
  plotSprite s.mem s.i.toNat (s.originColumn x) (s.originRow y) n.toNat ⟨s.display, false⟩

/-- A draw whose sprite lies in memory. -/
theorem exec_drw_ok {s : State} {n : BitVec 4} (h : spriteInBounds s.i.toNat n.toNat = true) (x y : Reg) :
    exec (.drw x y n) s = .next { s.writeCollision (s.drawn x y n).collided with
      display := (s.drawn x y n).display, dirty := true } := by
  simp [exec, execDrw, drawSprite, h, finish, State.drawn]

/-- A draw whose sprite runs past the end of memory. -/
theorem exec_drw_fatal {s : State} {n : BitVec 4} (h : spriteInBounds s.i.toNat n.toNat = false) (x y : Reg) :
    exec (.drw x y n) s = .next (takeFatal s.pc0 ⟨.spriteOutOfBounds, max s.i.toNat 4096⟩ s) := by
  simp [exec, execDrw, drawSprite, h, finish]

/-- Whatever a handler does, memory, stack, timers and latches are as before. -/
theorem exec_keeps {i : Instr} {s t : State} (h : exec i s = .next t) :
    t.mem = s.mem ∧ t.stack = s.stack ∧ t.sp = s.sp ∧ t.dt = s.dt ∧ t.st = s.st ∧ t.keys = s.keys := by
  cases i with
  | drw x y n =>
    cases hb : spriteInBounds s.i.toNat n.toNat
    · rw [exec_drw_fatal hb] at h; cases h; simp
    · rw [exec_drw_ok hb] at h; cases h; simp
  | cls => simp at h; subst h; simp
  | jp _ => simp at h; subst h; simp
  | ld _ _ => simp at h; subst h; simp
  | add _ _ => simp at h; subst h; simp
  | ldi _ => simp at h; subst h; simp
  | unhandled _ => simp at h; subst h; simp

/-! ### Step -/

theorem step_of_canFetch {s : State} (hr : s.status = .running) (hf : s.canFetch = true) :
    step s = exec (decode s.fetchWord) s.advance := by
  simp [step, cycleIfRunning, cycle, hr, hf]

theorem step_of_not_canFetch {s : State} (hr : s.status = .running) (hf : s.canFetch = false) :
    step s = .next (takeFatal s.pc ⟨.fetchOutOfBounds, s.pc.toNat⟩ s) := by
  simp [step, cycleIfRunning, cycle, hr, hf]

theorem step_of_halted {s : State} {k : FatalKind} {p : Word} {a : Nat} (h : s.status = .halted k p a) :
    step s = .fault (.halted k p a) := by
  simp [step, cycleIfRunning, h]

theorem step_of_stopped {s : State} (h : s.status = .stopped) : step s = .refused .stopped := by
  simp [step, cycleIfRunning, h]

/-- A step that answers a next state ran a RUNNING state: it failed the fetch, or it ran the decoded handler. -/
theorem step_cases {s t : State} (h : step s = .next t) :
    s.status = .running ∧
      ((s.canFetch = false ∧ t = takeFatal s.pc ⟨.fetchOutOfBounds, s.pc.toNat⟩ s) ∨
       (s.canFetch = true ∧ exec (decode s.fetchWord) s.advance = .next t)) := by
  cases hs : s.status with
  | running =>
    refine ⟨rfl, ?_⟩
    cases hf : s.canFetch with
    | false => rw [step_of_not_canFetch hs hf] at h; cases h; exact .inl ⟨rfl, rfl⟩
    | true => rw [step_of_canFetch hs hf] at h; exact .inr ⟨rfl, h⟩
  | halted k p a => rw [step_of_halted hs] at h; cases h
  | stopped => rw [step_of_stopped hs] at h; cases h

/-! ### The loader -/

/-- LoadImage either refuses a too long image under FAIL_LOAD_TOO_LARGE or changes memory alone (R168). -/
theorem loadImage_cases (q : Config.LoadPolicy) (image : List Byte) (s : State) :
    (3584 < image.length ∧ q = .failLoadTooLarge ∧ loadImage q image s = .loadTooLarge) ∨
    (¬ (3584 < image.length ∧ q = .failLoadTooLarge) ∧
      loadImage q image s = .loaded { s with mem := s.mem.writeBytes 0x200 (image.take 3584) }) := by
  by_cases h : 3584 < image.length ∧ q = .failLoadTooLarge
  · exact .inl ⟨h.1, h.2, by simp [loadImage, h]⟩
  · exact .inr ⟨h, by simp only [loadImage, Config.loadCapacity, Config.loadAddr, gt_iff_lt, h, if_false]⟩

/-- A fetch placed by the host is what the fetch reads (R52). -/
theorem fetchWord_withFetchWord {s : State} (hm : s.mem.wf) (hf : s.canFetch = true) (nbits w : Nat) :
    (s.withFetchWord nbits w).fetchWord = tableWord nbits w := by
  rw [canFetch_iff] at hf
  have hk : s.pc.toNat + [highByte (tableWord nbits w), lowByte (tableWord nbits w)].length ≤ 4096 := by
    simp only [List.length_cons, List.length_nil]; omega
  simp [State.fetchWord, State.readByte, read_writeBytes hm hk]

end Sys2Proof.Machine
end

