-- ==== Sys2Proof/Laws/System.lean ====
section
/-! SUPPORT. What a move of the system can do, said once; later proofs cite `move_cases` and unfold no move. And schedules one
after another. -/

namespace Sys2Proof.Machine

/-- Stop either stops a RUNNING engine or leaves the state as it is (R173). -/
theorem stopAction_cases (s : State) :
    (s.status = .running ∧ stopAction s = { s with status := .stopped }) ∨
    (s.status ≠ .running ∧ stopAction s = s) := by
  cases h : s.status <;> simp [stopAction, h]

/-- What the host's actions other than Reset and LoadImage can make of a core. -/
theorem hostAction_cases {p : Config.Params} {m : Move} {σ τ : System} (h : σ.move p m = some τ)
    (hc : m ≠ .cycle) (hr : m ≠ .reset) (hl : ∀ image, m ≠ .loadImage image) :
    τ.phase = σ.phase ∧ τ.reports = σ.reports ∧
      (τ.core = σ.core ∨ τ.core = ackDisplay σ.core ∨ τ.core = timerTick σ.core ∨
        (∃ k pressed, τ.core = setKey k pressed σ.core) ∨ τ.core = stopAction σ.core) := by
  cases m with
  | cycle => exact absurd rfl hc
  | reset => exact absurd rfl hr
  | loadImage image => exact absurd rfl (hl image)
  | readDisplay => cases h; exact ⟨rfl, rfl, .inl rfl⟩
  | ackDisplay => cases h; exact ⟨rfl, rfl, .inr (.inl rfl)⟩
  | timerTick => cases h; exact ⟨rfl, rfl, .inr (.inr (.inl rfl))⟩
  | setKey k pressed => cases h; exact ⟨rfl, rfl, .inr (.inr (.inr (.inl ⟨k, pressed, rfl⟩)))⟩
  | stop => cases h; exact ⟨rfl, rfl, .inr (.inr (.inr (.inr rfl)))⟩

/-- An enabled cycle is a step of a launched core, with its report logged (R97, R167). -/
theorem cycle_cases {σ τ : System} (h : σ.cycle = some τ) :
    σ.phase = .launched ∧ τ.phase = .launched ∧ step σ.core = .next τ.core ∧
      τ.reports = σ.reports ++ (cycleReport σ.core).toList := by
  cases hp : σ.phase with
  | fresh => simp [System.cycle, hp] at h
  | notLaunched => simp [System.cycle, hp] at h
  | launched =>
    cases hs : step σ.core with
    | fault r => simp [System.cycle, hp, hs] at h
    | refused r => simp [System.cycle, hp, hs] at h
    | next t =>
      simp only [System.cycle, hp, hs, Option.some.injEq] at h
      subst h
      exact ⟨rfl, rfl, rfl, rfl⟩

/-- An enabled LoadImage launches the core with the accepted image in memory, or leaves it unlaunched and unchanged (R168,
R183). -/
theorem load_cases {p : Config.Params} {image : List Byte} {σ τ : System} (h : σ.load p image = some τ) :
    σ.phase = .fresh ∧
      ((Accepted p image ∧ τ.phase = .launched ∧
          τ.core = { σ.core with mem := σ.core.mem.writeBytes 0x200 (image.take 3584) }) ∨
        (¬ Accepted p image ∧ τ.phase = .notLaunched ∧ τ.core = σ.core)) := by
  cases hp : σ.phase with
  | launched => simp [System.load, hp] at h
  | notLaunched => simp [System.load, hp] at h
  | fresh =>
    rcases loadImage_cases p.loadPolicy image σ.core with ⟨h1, h2, h3⟩ | ⟨h1, h3⟩ <;>
      simp only [System.load, hp, h3, Option.some.injEq] at h <;> subst h
    · exact ⟨rfl, .inr ⟨fun ha => ha ⟨h1, h2⟩, rfl, rfl⟩⟩
    · exact ⟨rfl, .inl ⟨h1, rfl, rfl⟩⟩

/-- Everything an enabled move can do (R165). -/
theorem move_cases {p : Config.Params} {m : Move} {σ τ : System} (h : σ.move p m = some τ) :
    (m = .cycle ∧ σ.phase = .launched ∧ τ.phase = .launched ∧ step σ.core = .next τ.core ∧
      τ.reports = σ.reports ++ (cycleReport σ.core).toList) ∨
    (m = .reset ∧ τ.phase = .fresh ∧ τ.core = State.reset ∧ τ.reports = σ.reports) ∨
    (∃ image, m = .loadImage image ∧ σ.phase = .fresh ∧
      ((Accepted p image ∧ τ.phase = .launched ∧
          τ.core = { σ.core with mem := σ.core.mem.writeBytes 0x200 (image.take 3584) }) ∨
        (¬ Accepted p image ∧ τ.phase = .notLaunched ∧ τ.core = σ.core))) ∨
    (m ≠ .cycle ∧ m ≠ .reset ∧ (∀ image, m ≠ .loadImage image) ∧ τ.phase = σ.phase ∧ τ.reports = σ.reports ∧
      (τ.core = σ.core ∨ τ.core = ackDisplay σ.core ∨ τ.core = timerTick σ.core ∨
        (∃ k pressed, τ.core = setKey k pressed σ.core) ∨ τ.core = stopAction σ.core)) := by
  by_cases hc : m = .cycle
  · subst hc; exact .inl ⟨rfl, cycle_cases h⟩
  by_cases hr : m = .reset
  · subst hr; cases h; exact .inr (.inl ⟨rfl, rfl, rfl, rfl⟩)
  by_cases hl : ∃ image, m = .loadImage image
  · obtain ⟨image, rfl⟩ := hl
    exact .inr (.inr (.inl ⟨image, rfl, load_cases h⟩))
  · have hl' : ∀ image, m ≠ .loadImage image := fun image e => hl ⟨image, e⟩
    exact .inr (.inr (.inr ⟨hc, hr, hl', hostAction_cases h hc hr hl'⟩))

/-- A schedule that starts with a move makes that move first. -/
theorem run_cons {p : Config.Params} {m : Move} {ms : List Move} {σ τ : System} (h : σ.run p (m :: ms) = some τ) :
    ∃ ρ, σ.move p m = some ρ ∧ ρ.run p ms = some τ := by
  simp only [System.run] at h
  cases hm : σ.move p m with
  | none => simp [hm] at h
  | some ρ => exact ⟨ρ, rfl, by simpa [hm] using h⟩

/-- A schedule in two parts runs the second from where the first ends. -/
theorem run_append {p : Config.Params} {ms ns : List Move} {σ τ : System} :
    σ.run p (ms ++ ns) = some τ ↔ ∃ ρ, σ.run p ms = some ρ ∧ ρ.run p ns = some τ := by
  induction ms generalizing σ with
  | nil => simp [System.run]
  | cons m ms ih =>
    simp only [List.cons_append, System.run]
    cases σ.move p m with
    | none => simp
    | some ρ => exact ih

end Sys2Proof.Machine
end

