-- ==== Sys2Proof/Tests/Slice0.lean ====
section
/-! SUPPORT. The model's own tests. Expected results come from spec/95_test_vectors.md (the vector's id stands before each
test) or from the rule named there, never from the model. Then one witness for each statement that has hypotheses. -/

namespace Sys2Proof.Tests

open Sys2Proof.Machine

/-- The next state of an outcome, if there is one. -/
def after : Host.Outcome State Fault Refusal → Option State
  | .next s => some s
  | .fault _ => none
  | .refused _ => none

/-- The reset state with bytes placed from an address upward. -/
def bytesAt (a : Nat) (bs : List Byte) : State := { State.reset with mem := Memory.writeBytes [] a bs }

/-- The state after one cycle of `s` with the word `w` at its pc. -/
def cycleOf (w : Nat) (s : State) : Option State := after (step (s.withFetchWord 16 w))

/-- The pixels that are on, column by column. -/
def litPixels (s : State) : List (Nat × Nat) :=
  (List.finRange 64).flatMap fun x => ((List.finRange 32).filter fun y => s.pixel x y).map fun y => (x.val, y.val)

/-! ### WellFormed: a term for each check, refused -/

theorem test_wf_refuses_cls_word : (Instr.unhandled 0x00E0).wellFormed = false := by decide
theorem test_wf_refuses_jp_word : (Instr.unhandled 0x1234).wellFormed = false := by decide
theorem test_wf_refuses_ld_word : (Instr.unhandled 0x6A42).wellFormed = false := by decide
theorem test_wf_refuses_add_word : (Instr.unhandled 0x7320).wellFormed = false := by decide
theorem test_wf_refuses_ldi_word : (Instr.unhandled 0xA20A).wellFormed = false := by decide
theorem test_wf_refuses_drw_word : (Instr.unhandled 0xD011).wellFormed = false := by decide
/-- The words of the UNHANDLED vectors are accepted. -/
theorem test_wf_accepts_unhandled_words :
    ([0x0000, 0x00DF, 0x00E1, 0x00EE, 0x0FFF, 0x2200, 0x3000, 0x4000, 0x5000, 0x8014, 0x9010, 0xB000, 0xC0FF, 0xE09E, 0xF00A,
      0xFFFF] : List Word).all (fun w => (Instr.unhandled w).wellFormed) = true := by decide

/-! ### Decode: words written out bit by bit from the encodings of R71 and R72 -/

theorem test_decode_cls : decode 0b0000000011100000 = .cls := by decide
theorem test_decode_jp : decode 0b0001001000110100 = .jp 0x234 := by decide
theorem test_decode_ld : decode 0b0110101001000010 = .ld 10 0x42 := by decide
theorem test_decode_add : decode 0b0111001100100000 = .add 3 0x20 := by decide
theorem test_decode_ldi : decode 0b1010001000001010 = .ldi 0x20A := by decide
theorem test_decode_drw : decode 0b1101111100100001 = .drw 15 2 1 := by decide
/-- The words of the UNHANDLED vectors. -/
theorem test_decode_unhandled :
    ([0x0000, 0x00DF, 0x00E1, 0x00EE, 0x0FFF, 0x2200, 0x3000, 0x4000, 0x5000, 0x8014, 0x9010, 0xB000, 0xC0FF, 0xE09E, 0xF00A,
      0xFFFF] : List Word).all (fun w => decode w == .unhandled w) = true := by decide
/-- R79: a decoder consumes exactly 2 bytes; R52: high byte first. -/
theorem test_decodeBytes_takes_two : decodeBytes [0x6A, 0x42, 0xFF] = .ok (.ld 10 0x42, [0xFF]) := by decide
theorem test_decodeBytes_needs_two : decodeBytes [0x6A] = .error .fewerThanTwoBytes := by decide
theorem test_decodeTableWord : decodeTableWord 16 0xD121 = some (.drw 1 2 1) := by decide
/-- R80: the assembler's words. -/
theorem test_encode : [encode .cls, encode (.jp 0x234), encode (.ld 10 0x42), encode (.add 3 0x20), encode (.ldi 0x20A),
    encode (.drw 15 2 1), encode (.unhandled 0x00EE)] = [0x00E0, 0x1234, 0x6A42, 0x7320, 0xA20A, 0xDF21, 0x00EE] := by decide

/-! ### The cycle -/

/-- CYC-1. -/
theorem test_cycle_at_4094 : (cycleOf 0x6001 { State.reset with pc := 0xFFE }).map
    (fun t => (t.readReg 0, t.pc, t.status)) = some (0x01, 0x1000, .running) := by decide
/-- CYC-3, L1-8: halted with its record, everything else as before. -/
theorem test_fetch_at_4095_halts : after (step { State.reset with pc := 0xFFF }) =
    some { State.reset with pc := 0xFFF, status := .halted .fetchOutOfBounds 0xFFF 0xFFF } := by decide
/-- CYC-6. -/
theorem test_odd_pc : (after (step { bytesAt 0x201 [0x60, 0x07] with pc := 0x201 })).map
    (fun t => (t.readReg 0, t.pc)) = some (0x07, 0x203) := by decide
/-- CYC-4, CYC-5: no cycle is enabled. -/
theorem test_no_cycle_when_halted : after (step { State.reset with status := .halted .fetchOutOfBounds 0 0 }) = none := by
  decide
theorem test_no_cycle_when_stopped : after (step { State.reset with status := .stopped }) = none := by decide

/-! ### UNHANDLED -/

/-- L1-7. -/
theorem test_unhandled_ffff : cycleOf 0xFFFF State.reset =
    some { bytesAt 0x200 [0xFF, 0xFF] with pc := 0x202 } := by decide
/-- L1-7: the report. -/
theorem test_unhandled_report : cycleReport (bytesAt 0x200 [0xFF, 0xFF]) = some ⟨0x200, 0xFFFF⟩ := by decide

/-! ### JP -/

/-- JP-2, JP-3: exactly NNN, odd targets too. -/
theorem test_jp_fff : (cycleOf 0x1FFF State.reset).map (·.pc) = some 0xFFF := by decide
theorem test_jp_odd : (cycleOf 0x1201 State.reset).map (·.pc) = some 0x201 := by decide

/-! ### LD, ADD, LD I -/

/-- LD-3, LD-4. -/
theorem test_ld_vf : (cycleOf 0x6F7E (State.reset.writeReg 15 0x01)).map (·.readReg 15) = some 0x7E := by decide
theorem test_ld_other : (cycleOf 0x6A42 (State.reset.writeReg 5 0x12)).map
    (fun t => (t.readReg 10, t.readReg 5)) = some (0x42, 0x12) := by decide
/-- ADD-1, ADD-4. -/
theorem test_add_wraps : (cycleOf 0x7001 ((State.reset.writeReg 0 0xFF).writeReg 15 0x05)).map
    (fun t => (t.readReg 0, t.readReg 15)) = some (0x00, 0x05) := by decide
theorem test_add_vf : (cycleOf 0x7FFF (State.reset.writeReg 15 0x01)).map (·.readReg 15) = some 0x00 := by decide
/-- LDI-1, LDI-2. -/
theorem test_ldi_zero : (cycleOf 0xA000 { State.reset with i := 0x0ABC }).map (·.i) = some 0x0000 := by decide
theorem test_ldi_fff : (cycleOf 0xAFFF State.reset).map (·.i) = some 0x0FFF := by decide

/-! ### CLS and DRW -/

/-- CLS-1 with one pixel on. -/
theorem test_cls : (cycleOf 0x00E0 { State.reset.writeReg 15 0x01 with
    display := Display.toggle State.reset.display 5 5 }).map
    (fun t => (litPixels t, t.dirty, t.readReg 15)) = some ([], true, 0x01) := by decide
/-- DRW-7: both axes wrap per pixel. -/
theorem test_drw_wraps : (cycleOf 0xD011 { ((bytesAt 0x300 [0xC0]).writeReg 0 255).writeReg 1 255 with i := 0x300 }).map
    (fun t => (litPixels t, t.readReg 15)) = some ([(0, 31), (63, 31)], 0) := by decide
/-- DRW-19: collision, and a pixel under a 0 bit is left alone. -/
theorem test_drw_collision : (cycleOf 0xD011 { bytesAt 0x300 [0xAA] with
    i := 0x300, display := Display.toggle (Display.toggle State.reset.display 0 0) 1 0 }).map
    (fun t => (litPixels t, t.readReg 15)) = some ([(1, 0), (2, 0), (4, 0), (6, 0)], 1) := by decide

/-! ### Host actions -/

/-- HOST-1, HOST-2. -/
theorem test_tick_at_zero : (timerTick State.reset).dt = 0 ∧ (timerTick State.reset).st = 0 := by decide
theorem test_tick : timerTick { State.reset with dt := 5, st := 1 } = { State.reset with dt := 4 } := by decide
/-- HOST-3. -/
theorem test_sound : soundActive { State.reset with st := 2 } = true := by decide
/-- HOST-7. -/
theorem test_stop_keeps_halted : (stopAction { State.reset with status := .halted .spriteOutOfBounds 0x200 0x1000 }).status =
    .halted .spriteOutOfBounds 0x200 0x1000 := by decide
/-- R183 for the image of P4, and one move of the system. -/
theorem test_launch : (System.boot.run ⟨.truncate, 60, 60⟩ [.loadImage [0x1F, 0xFF], .timerTick, .cycle]).map
    (fun τ => (τ.phase, τ.core.pc)) = some (.launched, 0xFFF) := by decide

/-! ### Witnesses: a concrete state and operands that meet the hypotheses of each statement -/

/-- DecodeOfEncodeIsTheInstruction. -/
theorem test_witness_wellFormed : (Instr.unhandled 0x00EE).wellFormed = true ∧ (Instr.drw 15 15 15).wellFormed = true := by
  decide
/-- DistinctWordsDecodeApart: two words that are equal, and words that are not. -/
theorem test_witness_decode_same : decode 0x6F00 = decode 0x6F00 ∧ decode 0x6F00 ≠ decode 0x6F01 := by decide
/-- DecodeFollowsTheClassNibble: a boundary word for each clause. -/
theorem test_witness_classes :
    ((0x00E1 : Word).extractLsb' 12 4 = 0x0 ∧ (0x00E1 : Word).extractLsb' 0 12 ≠ 0x0E0) ∧
    (0x1000 : Word).extractLsb' 12 4 = 0x1 ∧ (0x6FFF : Word).extractLsb' 12 4 = 0x6 ∧
    (0x7000 : Word).extractLsb' 12 4 = 0x7 ∧ (0xAFFF : Word).extractLsb' 12 4 = 0xA ∧
    (0xDFFF : Word).extractLsb' 12 4 = 0xD ∧
    (0xFFFF : Word).extractLsb' 12 4 ∉ ([0x0, 0x1, 0x6, 0x7, 0xA, 0xD] : List (BitVec 4)) := by decide
/-- UnhandledIsOutsideEveryRow: a word that a row selects. -/
theorem test_witness_row : ∃ row ∈ dispatchTable, (0xDFFF : Word) &&& row.mask = row.pattern := by decide
/-- StepRunsTheDecodedInstruction, StepRunsThePlacedWord, FetchFailsExactlyFrom4095: the last pc that fetches. -/
theorem test_witness_fetch : (State.reset.mem.wf ∧ State.reset.status = .running ∧ State.reset.pc.toNat ≤ 4094) ∧
    ({ State.reset with pc := 0xFFE } : State).pc.toNat ≤ 4094 := by decide
/-- StepRunsThePlacedWord: an address outside the placed word. -/
theorem test_witness_other_address : (0x1FF : Nat) ≠ State.reset.pc.toNat ∧ (0x1FF : Nat) ≠ State.reset.pc.toNat + 1 := by
  decide
/-- FailedFetchHaltsAndChangesNothingElse: the first pc that does not fetch. -/
theorem test_witness_failed_fetch : ({ State.reset with pc := 0xFFF } : State).status = .running ∧
    4094 < ({ State.reset with pc := 0xFFF } : State).pc.toNat := by decide
/-- HaltedFaultsAndStoppedIsRefused, StopEndsTheRunUntilReset: states of each status. -/
theorem test_witness_statuses : State.reset.status = .running ∧
    ({ State.reset with status := .stopped } : State).status = .stopped ∧
    ({ State.reset with status := .halted .stackOverflow 0 16 } : State).status = .halted .stackOverflow 0 16 := by decide
/-- FatalIsPrecise, FatalCausesAreTheTable: a cycle for each cause. -/
theorem test_witness_fatal :
    (after (step { State.reset with pc := 0x1000 })).map (·.status) = some (.halted .fetchOutOfBounds 0x1000 0x1000) ∧
    (cycleOf 0xD002 { State.reset with i := 0xFFF }).map (·.status) = some (.halted .spriteOutOfBounds 0x200 0x1000) := by
  decide
/-- OnlyJpLeavesSequentialFlow: a cycle of JP and one of another instruction, both RUNNING after. -/
theorem test_witness_flow :
    (cycleOf 0x1000 State.reset).map (fun t => (t.status, t.pc)) = some (.running, 0) ∧
    (cycleOf 0x6001 State.reset).map (fun t => (t.status, t.pc)) = some (.running, 0x202) := by decide
/-- ZeroMemoryRunsOffTheEnd: zero memory from an even and from an odd pc, k = 0 included. -/
theorem test_witness_zero_memory : State.reset.status = .running ∧
    (∀ a : Nat, State.reset.pc.toNat ≤ a → a ≤ 4095 → State.reset.readByte a = 0) ∧
    State.reset.pc.toNat + 2 * 1792 = 4096 ∧ (0xFFF : Word).toNat + 2 * 0 = 4095 :=
  ⟨rfl, fun _ _ _ => rfl, by decide, by decide⟩
/-- CyclesKeepMemoryStackTimersAndKeys, RegistersAreWrittenOnlyByTheirInstructions, EveryStepKeepsTheInvariant: a cycle that
changes a register, and one that changes I. -/
theorem test_witness_register_change :
    (cycleOf 0x6001 State.reset).map (fun t => t.readReg 0 != State.reset.readReg 0) = some true ∧
    (cycleOf 0xA001 State.reset).map (fun t => t.i != State.reset.i) = some true := by decide
/-- DisplayIsWrittenOnlyByClsAndDrw: a cycle that changes a pixel, and one from a state with dirty set. -/
theorem test_witness_pixel_change :
    (cycleOf 0xD011 { bytesAt 0x300 [0x80] with i := 0x300 }).map (fun t => (t.pixel 0 0, t.dirty)) = some (true, true) ∧
    (cycleOf 0x6001 { State.reset with dirty := true }).map (·.dirty) = some true := by decide
/-- JpSetsThePcExactly: the word 0x1200 at 0x200 jumps to itself. -/
theorem test_witness_self_jump : (bytesAt 0x200 [0x12, 0x00]).status = .running ∧
    (bytesAt 0x200 [0x12, 0x00]).pc.toNat ≤ 4094 ∧
    decode (bytesAt 0x200 [0x12, 0x00]).fetchWord = .jp ((bytesAt 0x200 [0x12, 0x00]).pc.extractLsb' 0 12) := by decide
/-- UnhandledIsReportedAndSkipped: an UNHANDLED word at 4094. -/
theorem test_witness_unhandled : ({ State.reset with pc := 0xFFE } : State).pc.toNat = 4094 ∧
    decode ({ State.reset with pc := 0xFFE } : State).fetchWord = .unhandled 0x0000 ∧
    cycleReport { State.reset with pc := 0xFFE } = some ⟨0xFFE, 0x0000⟩ := by decide
/-- DrwTogglesTheSpriteAndReportsCollision, DoubleDrawRestoresTheDisplay, DrwOriginCountsModuloTheScreen: the longest sprite
that ends at 0xFFF, and one with N = 0. -/
theorem test_witness_sprite_in_memory : ¬ SpritePastEnd { State.reset with i := 0xFF1 } 15 ∧
    ¬ SpritePastEnd { State.reset with i := 0xFFFF } 0 := by
  unfold SpritePastEnd; decide
/-- DrwTogglesTheSpriteAndReportsCollision: a set sprite pixel on a pixel that is on (DRW-2), and none (reset). -/
theorem test_witness_collision :
    (∃ (px : Column) (py : Row),
      SpriteCovers { bytesAt 0x300 [0x80] with i := 0x300, display := Display.toggle State.reset.display 0 0 } 0 1 1 px py ∧
      State.pixel { bytesAt 0x300 [0x80] with i := 0x300, display := Display.toggle State.reset.display 0 0 } px py = true) ∧
    ¬ ∃ (px : Column) (py : Row), SpriteCovers State.reset 0 1 0 px py ∧ State.reset.pixel px py = true :=
  ⟨⟨0, 0, ⟨0, 0, by decide, by decide, by decide, by decide, by decide⟩, by decide⟩,
    fun ⟨_, _, ⟨_, _, h, _⟩, _⟩ => absurd h (Nat.not_lt_zero _)⟩
/-- DrwTogglesTheSpriteAndReportsCollision: a landing sprite pixel. -/
theorem test_witness_landing : SpriteLands { bytesAt 0x300 [0x01] with i := 0x300 } 0 1 0 7 7 0 :=
  ⟨by decide, by decide, by decide⟩
/-- DrwPastTheEndHaltsPrecisely, FailedDrwDiscardsTheAdvance, DrwTogglesTheSpriteAndReportsCollision (dirty kept): one byte too
many (DRW-15), with its word at pc. -/
theorem test_witness_sprite_past_end : SpritePastEnd { bytesAt 0x200 [0xD0, 0x0F] with i := 0xFF2 } 15 ∧
    ({ bytesAt 0x200 [0xD0, 0x0F] with i := 0xFF2 } : State).status = .running ∧
    ({ bytesAt 0x200 [0xD0, 0x0F] with i := 0xFF2 } : State).pc.toNat ≤ 4094 ∧
    decode ({ bytesAt 0x200 [0xD0, 0x0F] with i := 0xFF2 } : State).fetchWord = .drw 0 0 15 ∧
    ({ bytesAt 0x200 [0xD0, 0x0F] with i := 0xFF2 } : State).i.toNat ≤ 0xFFF :=
  ⟨⟨by decide, by decide⟩, by decide⟩
/-- DrwOriginCountsModuloTheScreen: 70 and 6, 35 and 3 (L1-5). -/
theorem test_witness_origin :
    (((State.reset.writeReg 0 70).writeReg 1 35).readReg 0).toNat % 64 =
      (((State.reset.writeReg 0 6).writeReg 1 3).readReg 0).toNat % 64 ∧
    (((State.reset.writeReg 0 70).writeReg 1 35).readReg 1).toNat % 32 =
      (((State.reset.writeReg 0 6).writeReg 1 3).readReg 1).toNat % 32 := by decide
/-- DoubleDrawRestoresTheDisplay: the coordinate registers are the same after the draw, for X and Y below 15 and for X = 15
when VF keeps its value. -/
theorem test_witness_double_draw :
    (cycleOf 0xD011 { bytesAt 0x300 [0x80] with i := 0x300 }).map (fun t => (t.readReg 0, t.readReg 1)) = some (0, 0) ∧
    (cycleOf 0xDFF1 { bytesAt 0x300 [0x80] with i := 0x300 }).map (·.readReg 15) = some 0 := by decide
/-- EveryStepKeepsTheInvariant, EveryMoveKeepsTheInvariant: a state that meets the invariant, HALTED by a sprite. -/
theorem test_witness_invariant :
    State.Inv { State.reset with i := 0xFFF, status := .halted .spriteOutOfBounds 0x200 0x1000 } :=
  ⟨by decide, by decide, by decide, ⟨rfl, by decide, rfl⟩⟩
/-- ReachableStatesKeepTheirRanges, RunsReadTheLaunchImage, EveryUnhandledCycleIsLogged, EveryMoveKeepsTheInvariant: a reached
launched system with the word 0xFFFF loaded, and a cycle from it. -/
theorem test_witness_reachable : ∃ σ τ : System, Reachable ⟨.truncate, 60, 60⟩ σ ∧ σ.phase = .launched ∧
    σ.move ⟨.truncate, 60, 60⟩ .cycle = some τ ∧ σ.core.pc.toNat ≤ 4094 ∧
    decode σ.core.fetchWord = .unhandled 0xFFFF :=
  ⟨⟨.launched, bytesAt 0x200 [0xFF, 0xFF], []⟩, _,
    .move (.loadImage [0xFF, 0xFF]) .boot (by decide), rfl, rfl, by decide, by decide⟩
/-- FirstFatalRecordStaysUntilReset: a HALTED system and host actions after it. -/
theorem test_witness_after_fatal :
    (System.run ⟨.truncate, 60, 60⟩ [.stop, .timerTick, .setKey 4 true]
      ⟨.launched, { State.reset with pc := 0xFFF, status := .halted .fetchOutOfBounds 0xFFF 0xFFF }, []⟩).map
      (·.core.status) = some (.halted .fetchOutOfBounds 0xFFF 0xFFF) ∧
    Move.reset ∉ ([.stop, .timerTick, .setKey 4 true] : List Move) := by decide
/-- EveryUnhandledCycleIsLogged: a launched cycle that fails its fetch, and one of a handled word. -/
theorem test_witness_quiet_cycle :
    (System.move ⟨.truncate, 60, 60⟩ .cycle ⟨.launched, { State.reset with pc := 0xFFF }, []⟩).map (·.reports) = some [] ∧
    (System.move ⟨.truncate, 60, 60⟩ .cycle ⟨.launched, bytesAt 0x200 [0x60, 0x01], []⟩).map (·.reports) = some [] := by
  decide
/-- StopEndsTheRunUntilReset: a move of a STOPPED system. -/
theorem test_witness_stopped_move : (System.move ⟨.truncate, 60, 60⟩ .ackDisplay
    ⟨.launched, { State.reset with status := .stopped }, []⟩).map (·.core.status) = some .stopped := by decide
/-- ResetZeroesEveryField: a move that makes a HALTED core RUNNING, and it is the reset. -/
theorem test_witness_recovery :
    (System.move ⟨.truncate, 60, 60⟩ .reset
      ⟨.launched, { State.reset with status := .halted .fetchOutOfBounds 0xFFF 0xFFF }, []⟩).map (·.core.status) = some .running := by decide
/-- RunsReadTheLaunchImage, LoadImageCopiesTheProgram: a schedule that starts with a cycle and holds no reset. -/
theorem test_witness_from_first_cycle :
    (System.run ⟨.truncate, 60, 60⟩ [.cycle, .setKey 1 true, .cycle] ⟨.launched, State.reset, []⟩).map (·.core.pc) =
      some 0x204 ∧ Move.reset ∉ ([.setKey 1 true, .cycle] : List Move) := by decide
/-- LoadImageCopiesTheProgram, LaunchStateIsResetWithTheImage: HOST-5, HOST-4, and an image that fits. -/
theorem test_witness_images :
    (3584 < (List.replicate 3585 (0x55 : Byte)).length ∧ Config.LoadPolicy.failLoadTooLarge = .failLoadTooLarge) ∧
    ¬ (3584 < (List.replicate 3585 (0x55 : Byte)).length ∧ Config.LoadPolicy.truncate = .failLoadTooLarge) ∧
    ¬ (3584 < (List.replicate 3584 (0x55 : Byte)).length ∧ Config.LoadPolicy.failLoadTooLarge = .failLoadTooLarge) := by
  simp only [List.length_replicate]; decide
/-- RunsReadTheLaunchImage: under either policy an image of 3584 bytes is accepted, a longer one under TRUNCATE. -/
theorem test_witness_accepted : Accepted ⟨.failLoadTooLarge, 60, 60⟩ (List.replicate 3584 0x55) ∧
    Accepted ⟨.truncate, 60, 60⟩ (List.replicate 3585 0x55) := by
  simp only [Accepted, List.length_replicate]; decide
/-- RunsReadTheLaunchImage: boot, and what a reset move leaves of a system that ran. -/
theorem test_witness_after_reset : AfterReset ⟨.truncate, 60, 60⟩ System.boot ∧
    AfterReset ⟨.truncate, 60, 60⟩ ⟨.fresh, State.reset, [⟨0x200, 0xFFFF⟩]⟩ :=
  ⟨.inl rfl, .inr ⟨⟨.launched, bytesAt 0x200 [0xFF, 0xFF], [⟨0x200, 0xFFFF⟩]⟩, rfl⟩⟩
/-- RunsReadTheLaunchImage: from boot, a schedule without a reset that loads an image first, and one that loads it after
another action; the image's bytes stand in their order (R168). -/
theorem test_witness_load_schedule :
    (System.boot.run ⟨.truncate, 60, 60⟩ (.loadImage [0x60, 0x01] :: [.cycle])).map
      (fun τ => (τ.core.readByte 0x200, τ.core.readByte 0x201, τ.core.readByte 0x202)) = some (0x60, 0x01, 0x00) ∧
    (System.boot.run ⟨.truncate, 60, 60⟩ ([.setKey 1 true] ++ .loadImage [0x60, 0x01] :: [.cycle])).map
      (·.core.readByte 0x201) = some 0x01 ∧
    Move.reset ∉ ([.setKey 1 true] : List Move) ∧ Move.reset ∉ ([.cycle] : List Move) := by decide
/-- EveryMoveKeepsTheSystemInvariant: a system that meets the invariant, and a move of it. -/
theorem test_witness_system_invariant : System.Inv ⟨.launched, State.reset, []⟩ ∧
    (System.move ⟨.truncate, 60, 60⟩ .cycle ⟨.launched, State.reset, []⟩).isSome = true :=
  ⟨⟨⟨by decide, by decide, by decide, trivial⟩, rfl, by decide, fun _ _ => rfl, fun _ _ => rfl⟩, by decide⟩
/-- LoadImageCopiesTheProgram: a load that the policy refuses is a move of boot (HOST-5). -/
theorem test_witness_refused_load :
    3584 < (List.replicate 3585 (0x55 : Byte)).length ∧
    (System.boot.move ⟨.failLoadTooLarge, 60, 60⟩ (.loadImage (List.replicate 3585 0x55))).isSome = true := by
  simp only [System.move, System.load, System.boot, loadImage, List.length_replicate]; decide
/-- StackPushWritesTheNextEntry, StackPopReturnsTheNewestEntry, PopAfterPushReturnsThePushed: full, last free, empty, one. -/
theorem test_witness_stack : ({ State.reset with sp := 16 } : State).sp.val = 16 ∧
    ({ State.reset with sp := 15 } : State).sp.val ≠ 16 ∧ ({ State.reset with sp := 15 } : State).sp.val < 16 ∧
    State.reset.sp.val = 0 ∧ ({ State.reset with sp := 16 } : State).sp.val = (15 : Fin 16).val + 1 := by decide

end Sys2Proof.Tests
end

section
/-! Memory and fetch (spec/20_memory.md): the byte order of the fetched word. -/

namespace Sys2Proof.Machine

/-- Settles O7: `fetchWord` joins the bytes at pc and pc + 1, and `wordOf_toNat` gives the value of a joined pair (R52). -/
theorem fetchedWordIsBigEndian : Obligations.FetchedWordIsBigEndian := by
  unfold Obligations.FetchedWordIsBigEndian
  intro s
  exact wordOf_toNat (s.readByte s.pc.toNat) (s.readByte (s.pc.toNat + 1))

end Sys2Proof.Machine
end

section
/-! The decoder class by class, and that the word is recovered from what it decodes to (spec/30_encoding.md R73, R76). -/

namespace Sys2Proof

/-! ### One equation of `decode` per row of the dispatch (R73) -/

theorem decode_of_class_cls {w : Word} (h : classField w = 0x0) (hn : nnnField w = 0x0E0) : decode w = .cls := by
  simp [decode, h, hn]
theorem decode_of_class_zero {w : Word} (h : classField w = 0x0) (hn : nnnField w ≠ 0x0E0) : decode w = .unhandled w := by
  rw [decode, if_pos h, if_neg hn]
theorem decode_of_class_jp {w : Word} (h : classField w = 0x1) : decode w = .jp (nnnField w) := by
  simp [decode, h]
theorem decode_of_class_ld {w : Word} (h : classField w = 0x6) : decode w = .ld (xField w) (nnField w) := by
  simp [decode, h]
theorem decode_of_class_add {w : Word} (h : classField w = 0x7) : decode w = .add (xField w) (nnField w) := by
  simp [decode, h]
theorem decode_of_class_ldi {w : Word} (h : classField w = 0xA) : decode w = .ldi (nnnField w) := by
  simp [decode, h]
theorem decode_of_class_drw {w : Word} (h : classField w = 0xD) :
    decode w = .drw (xField w) (yField w) (nField w) := by
  simp [decode, h]
theorem decode_of_class_not_listed {w : Word}
    (h : classField w ∉ ([0x0, 0x1, 0x6, 0x7, 0xA, 0xD] : List (BitVec 4))) : decode w = .unhandled w := by
  simp only [List.mem_cons, List.not_mem_nil, or_false, not_or] at h
  obtain ⟨h0, h1, h6, h7, hA, hD⟩ := h
  simp only [decode, if_neg h0, if_neg h1, if_neg h6, if_neg h7, if_neg hA, if_neg hD]

/-! ### A word is the concatenation of its fields (R71) -/

theorem append_nnnField_of_class {w : Word} {c : BitVec 4} (h : classField w = c) : c ++ nnnField w = w := by
  subst h
  exact (BitVec.extractLsb'_append_extractLsb'_eq_extractLsb' (w := 16) (by rfl)).trans BitVec.extractLsb'_eq_self

theorem xField_append_nnField (w : Word) : regBits (xField w) ++ nnField w = nnnField w :=
  BitVec.extractLsb'_append_extractLsb'_eq_extractLsb' (w := 16) (by rfl)

theorem yField_append_nField (w : Word) : regBits (yField w) ++ nField w = nnField w :=
  BitVec.extractLsb'_append_extractLsb'_eq_extractLsb' (w := 16) (by rfl)

theorem append_xField_nnField_of_class {w : Word} {c : BitVec 4} (h : classField w = c) :
    c ++ regBits (xField w) ++ nnField w = w :=
  calc c ++ regBits (xField w) ++ nnField w
    _ = c ++ (regBits (xField w) ++ nnField w) := BitVec.append_assoc
    _ = c ++ nnnField w := congrArg (c ++ ·) (xField_append_nnField w)
    _ = w := append_nnnField_of_class h

theorem append_xField_yField_nField_of_class {w : Word} {c : BitVec 4} (h : classField w = c) :
    c ++ regBits (xField w) ++ regBits (yField w) ++ nField w = w :=
  calc (c ++ regBits (xField w) ++ regBits (yField w) ++ nField w : Word)
    _ = c ++ regBits (xField w) ++ (regBits (yField w) ++ nField w) := BitVec.append_assoc
    _ = c ++ regBits (xField w) ++ nnField w := congrArg (c ++ regBits (xField w) ++ ·) (yField_append_nField w)
    _ = w := append_xField_nnField_of_class h

/-- No bit of a word is lost by decoding it, because each format concatenates its fields back to the word (R76). -/
theorem encode_decode (w : Word) : encode (decode w) = w := by
  unfold decode
  split_ifs with h0 hn h1 h6 h7 hA hD
  · calc encode .cls
      _ = 0x0#4 ++ nnnField w := by rw [hn]; rfl
      _ = w := append_nnnField_of_class h0
  · rfl
  · exact append_nnnField_of_class h1
  · exact append_xField_nnField_of_class h6
  · exact append_xField_nnField_of_class h7
  · exact append_nnnField_of_class hA
  · exact append_xField_yField_nField_of_class hD
  · rfl

/-- Settles O3: `encode` is a left inverse of `decode` (`encode_decode`), so `decode` is injective (R76). -/
theorem distinctWordsDecodeApart : Obligations.DistinctWordsDecodeApart := by
  unfold Obligations.DistinctWordsDecodeApart
  have hinv : Function.LeftInverse encode decode := encode_decode
  exact fun _ _ h => hinv.injective h

/-- Settles O4: one equation of `decode` per class; 0x00E0 is the class-0 word whose low 12 bits are 0x0E0 (R73). -/
theorem decodeFollowsTheClassNibble : Obligations.DecodeFollowsTheClassNibble := by
  unfold Obligations.DecodeFollowsTheClassNibble
  intro w
  refine ⟨?cls, decode_of_class_zero, decode_of_class_jp, decode_of_class_ld, decode_of_class_add, decode_of_class_ldi,
    decode_of_class_drw, decode_of_class_not_listed⟩
  case cls =>
    rintro rfl
    exact decode_of_class_cls (by decide) (by decide)

end Sys2Proof
end

section
/-! The engine cycle (spec/40_engine_cycle.md): when a cycle runs, when its fetch fails, and what UNHANDLED leaves behind. -/

namespace Sys2Proof.Machine

/-! ### What every handler answers -/

/-- A handler always answers a next state, and no handler makes a FATAL record of the fetch kind: the status stays, or DRW
records its sprite (R95, R100). -/
theorem exec_next_status (i : Instr) (s : State) :
    ∃ t, exec i s = .next t ∧ (t.status = s.status ∨ ∃ p a, t.status = .halted .spriteOutOfBounds p a) := by
  cases i with
  | drw x y n =>
    cases hb : spriteInBounds s.i.toNat n.toNat with
    | false => exact ⟨_, exec_drw_fatal hb x y, .inr ⟨_, _, rfl⟩⟩
    | true => exact ⟨_, exec_drw_ok hb x y, .inl rfl⟩
  | cls => exact ⟨_, exec_cls s, .inl rfl⟩
  | jp nnn => exact ⟨_, exec_jp nnn s, .inl rfl⟩
  | ld x nn => exact ⟨_, exec_ld x nn s, .inl rfl⟩
  | add x nn => exact ⟨_, exec_add x nn s, .inl rfl⟩
  | ldi nnn => exact ⟨_, exec_ldi nnn s, .inl rfl⟩
  | unhandled w => exact ⟨_, exec_unhandled w s, .inl rfl⟩

/-! ### The fetch and the step -/

theorem canFetch_eq_false_iff (s : State) : s.canFetch = false ↔ 4095 ≤ s.pc.toNat := by
  rw [← Bool.not_eq_true, canFetch_iff]
  omega

/-- A failed fetch halts at pc0 with every field but the status as before (R92). -/
theorem step_of_pc_past_end {s : State} (hr : s.status = .running) (hpc : 4095 ≤ s.pc.toNat) :
    step s = .next { s with status := .halted .fetchOutOfBounds s.pc s.pc.toNat } :=
  step_of_not_canFetch hr ((canFetch_eq_false_iff s).2 hpc)

/-- A RUNNING state always has a cycle, whether its fetch succeeds or not (R99). -/
theorem exists_step_of_running {s : State} (hr : s.status = .running) : ∃ t, step s = .next t := by
  cases hf : s.canFetch with
  | false => exact ⟨_, step_of_not_canFetch hr hf⟩
  | true =>
    obtain ⟨t, ht, -⟩ := exec_next_status (decode s.fetchWord) s.advance
    exact ⟨t, (step_of_canFetch hr hf).trans ht⟩

/-- Only a failed fetch makes the record of a fetch, because a handler that runs keeps RUNNING or records a sprite (R92). -/
theorem pc_past_end_of_fetch_halt {s t : State} {p : Word} {a : Nat} (h : step s = .next t)
    (hh : t.status = .halted .fetchOutOfBounds p a) : 4095 ≤ s.pc.toNat := by
  obtain ⟨hr, ⟨hf, -⟩ | ⟨-, he⟩⟩ := step_cases h
  · exact (canFetch_eq_false_iff s).1 hf
  · obtain ⟨t', ht', hstatus⟩ := exec_next_status (decode s.fetchWord) s.advance
    obtain rfl : t = t' := by simpa [he] using ht'
    simp [hh, hr] at hstatus

/-- Settles O12: `step_cases` needs RUNNING, and a RUNNING state has a cycle because every handler answers a next state
(R99). -/
theorem cycleRunsExactlyWhenRunning : Obligations.CycleRunsExactlyWhenRunning := by
  unfold Obligations.CycleRunsExactlyWhenRunning
  intro s
  constructor
  · rintro ⟨t, h⟩
    exact (step_cases h).1
  · exact exists_step_of_running

/-- Settles O8: `step_of_canFetch` runs the handler in the advanced state, and `advance_pc_toNat` bounds the advance (R93). -/
theorem stepRunsTheDecodedInstruction : Obligations.StepRunsTheDecodedInstruction := by
  unfold Obligations.StepRunsTheDecodedInstruction
  intro s hr hpc
  have hf : s.canFetch = true := (canFetch_iff s).2 hpc
  have hadv : (s.pc + 2).toNat = s.pc.toNat + 2 := advance_pc_toNat hf
  exact ⟨step_of_canFetch hr hf, hadv, by omega⟩

/-- Settles O10: the failed fetch is `step_of_pc_past_end`, and the HALTED state it leaves only faults (R92). -/
theorem failedFetchHaltsAndChangesNothingElse : Obligations.FailedFetchHaltsAndChangesNothingElse := by
  unfold Obligations.FailedFetchHaltsAndChangesNothingElse
  intro s hr hpc
  refine ⟨step_of_pc_past_end hr hpc, fun t h => ?_⟩
  rw [step_of_halted rfl] at h
  cases h

/-- Settles O11: a fetch past 4094 halts (`step_of_pc_past_end`), nothing else makes a fetch record
(`pc_past_end_of_fetch_halt`), and the word is `fetchWord`, whose value `wordOf_toNat` gives (R91). -/
theorem fetchFailsExactlyFrom4095 : Obligations.FetchFailsExactlyFrom4095 := by
  unfold Obligations.FetchFailsExactlyFrom4095
  refine ⟨fun s t h => (step_cases h).1, fun s hr => ⟨⟨?halts, ?pastEnd⟩, ?fetches⟩⟩
  case halts =>
    rintro ⟨t, p, a, h, hh⟩
    exact pc_past_end_of_fetch_halt h hh
  case pastEnd => exact fun hpc => ⟨_, s.pc, s.pc.toNat, step_of_pc_past_end hr hpc, rfl⟩
  case fetches =>
    exact fun hpc => ⟨s.fetchWord, wordOf_toNat _ _, step_of_canFetch hr ((canFetch_iff s).2 hpc)⟩

/-! ### UNHANDLED and its report -/

/-- UNHANDLED carries the word it was decoded from, because the encoder gives that word back (R73). -/
theorem decode_eq_unhandled {w u : Word} (h : decode w = .unhandled u) : u = w :=
  calc u
    _ = encode (decode w) := by rw [h]; rfl
    _ = w := encode_decode w

/-- A handler reports exactly when it is UNHANDLED's, and then the address and the word (R96, R97). -/
theorem reportOf_eq_some_iff (i : Instr) (s : State) (e : Report) :
    reportOf i s = some e ↔ i = .unhandled e.word ∧ e.pc0 = s.pc0 := by
  obtain ⟨pc0, word⟩ := e
  cases i with
  | unhandled w => simp [reportOf, and_comm, eq_comm]
  | cls => simp [reportOf]
  | jp nnn => simp [reportOf]
  | ld x nn => simp [reportOf]
  | add x nn => simp [reportOf]
  | ldi nnn => simp [reportOf]
  | drw x y n => simp [reportOf]

/-- A cycle reports exactly when it runs UNHANDLED, and then its own address and word (R97). -/
theorem cycleReport_eq_some_iff (s : State) (e : Report) :
    cycleReport s = some e ↔
      s.status = .running ∧ s.pc.toNat ≤ 4094 ∧ decode s.fetchWord = .unhandled e.word ∧ e.pc0 = s.pc := by
  simp only [cycleReport, Option.ite_none_right_eq_some, reportOf_eq_some_iff, advance_pc0, canFetch_iff, and_assoc]

/-- Settles O26: UNHANDLED leaves the advanced state as it is, `cycleReport_eq_some_iff` says which cycles report, and the
advance from 4094 ends at 4096, where the next fetch fails (R97). -/
theorem unhandledIsReportedAndSkipped : Obligations.UnhandledIsReportedAndSkipped := by
  unfold Obligations.UnhandledIsReportedAndSkipped
  refine ⟨exec_unhandled, fun s w hr hpc hd => ⟨decode_eq_unhandled hd, ?skips, ?reports, ?lastWord⟩,
    fun s e => (cycleReport_eq_some_iff s e).1⟩
  case skips =>
    rw [step_of_canFetch hr ((canFetch_iff s).2 hpc), hd]
    exact exec_unhandled w s.advance
  case reports => exact (cycleReport_eq_some_iff s _).2 ⟨hr, hpc, hd, rfl⟩
  case lastWord =>
    intro hlast
    have hend : s.advance.pc = 0x1000 := by
      rw [advance_pc]
      bv_omega
    have hpast : 4095 ≤ s.advance.pc.toNat := by rw [hend]; decide
    exact ⟨_, step_of_pc_past_end (s := s.advance) hr hpast,
      congrArg₂ (Status.halted .fetchOutOfBounds) hend (congrArg BitVec.toNat hend)⟩

end Sys2Proof.Machine
end

section
/-! Control flow (spec/41_control_flow.md): JP, the fetch failure after a jump to 0xFFF, and the jump to itself. -/

namespace Sys2Proof.Machine

/-- A state that one step leaves as it is, any number of steps leaves as it is. -/
theorem run_of_step_eq_self {M : Host.Core} {s : M.State} (h : M.step s = .next s) (k : Nat) : M.run k s = .next s := by
  induction k with
  | zero => rfl
  | succ k ih =>
    rw [Host.Core.run, h]
    exact ih

/-- A pc of at most 12 bits is recovered from its low 12 bits, so a word can jump to its own address (R74). -/
theorem zext16_extractLsb'_of_lt {a : Word} (h : a.toNat < 4096) : zext16 (a.extractLsb' 0 12) = a :=
  BitVec.eq_of_toNat_eq <|
    calc (zext16 (a.extractLsb' 0 12)).toNat
      _ = (a.extractLsb' 0 12).toNat := zext16_toNat _
      _ = a.toNat % 4096 := by simp
      _ = a.toNat := Nat.mod_eq_of_lt h

/-- The cycle of a jump ends at NNN, because its assignment replaces the advance (R110). -/
theorem step_of_jp {s : State} {nnn : BitVec 12} (hr : s.status = .running) (hpc : s.pc.toNat ≤ 4094)
    (hd : decode s.fetchWord = .jp nnn) : step s = .next { s with pc := zext16 nnn } := by
  rw [step_of_canFetch hr ((canFetch_iff s).2 hpc), hd]
  exact exec_jp nnn s.advance

/-- Settles O22: `exec_jp` gives the effect and the frame, `step_of_pc_past_end` the failed fetch at 0xFFF, and a jump to
itself is a fixed point of the step, so `run_of_step_eq_self` gives every number of cycles (R110). -/
theorem jpSetsThePcExactly : Obligations.JpSetsThePcExactly := by
  unfold Obligations.JpSetsThePcExactly
  refine ⟨?encoding, fun nnn s => ⟨_, exec_jp nnn s, zext16_toNat nnn, fun _ => rfl, rfl, ⟨fun _ _ => rfl, rfl⟩,
    ⟨fun _ => rfl, ⟨rfl, rfl⟩, ⟨rfl, rfl, rfl⟩, rfl⟩, ?lastAddress⟩, ?selfJump⟩
  case encoding =>
    intro nnn
    calc decode (0x1#4 ++ nnn)
      _ = .jp (nnnField (0x1#4 ++ nnn)) := decode_of_class_jp (classField_nnn 0x1#4 nnn)
      _ = .jp nnn := by rw [nnnField_nnn]
  case lastAddress =>
    rintro rfl hr
    have hpast : 4095 ≤ (zext16 0xFFF).toNat := by decide
    exact step_of_pc_past_end (s := { s with pc := zext16 0xFFF }) hr hpast
  case selfJump =>
    intro s hr hpc hd
    have hfixed : step s = .next s :=
      calc step s
        _ = .next { s with pc := zext16 (s.pc.extractLsb' 0 12) } := step_of_jp hr hpc hd
        _ = .next s := by rw [zext16_extractLsb'_of_lt (by omega)]
    exact run_of_step_eq_self (M := core) hfixed

end Sys2Proof.Machine
end

section
/-! Immediate loads (spec/42_immediate_loads.md): LD VX, NN; ADD VX, NN; LD I, NNN. -/

namespace Sys2Proof

/-! ### The words of the three instructions (R72) -/

theorem decode_ld_word (x : Reg) (nn : Byte) : decode (0x6#4 ++ regBits x ++ nn) = .ld x nn := by
  rw [decode_of_class_ld (classField_xnn 0x6#4 (regBits x) nn), xField_xnn, nnField_xnn, regBits_toFin]

theorem decode_add_word (x : Reg) (nn : Byte) : decode (0x7#4 ++ regBits x ++ nn) = .add x nn := by
  rw [decode_of_class_add (classField_xnn 0x7#4 (regBits x) nn), xField_xnn, nnField_xnn, regBits_toFin]

theorem decode_ldi_word (nnn : BitVec 12) : decode (0xA#4 ++ nnn) = .ldi nnn := by
  rw [decode_of_class_ldi (classField_nnn 0xA#4 nnn), nnnField_nnn]

end Sys2Proof

namespace Sys2Proof.Machine

/-- The frame that LD and ADD share: a register write changes its own register and nothing else (R120, R121). -/
theorem writeReg_frame (s : State) (x : Reg) (b : Byte) :
    SameRegsBut x s (s.writeReg x b) ∧ (s.writeReg x b).i = s.i ∧ (s.writeReg x b).pc = s.pc ∧
      SameDisplay s (s.writeReg x b) ∧ SameRest s (s.writeReg x b) :=
  ⟨fun _ h => readReg_writeReg_other s b h, writeReg_i s x b, writeReg_pc s x b,
    ⟨writeReg_pixel s x b, writeReg_dirty s x b⟩,
    ⟨writeReg_readByte s x b, ⟨writeReg_stack s x b, writeReg_sp s x b⟩,
      ⟨writeReg_dt s x b, writeReg_st s x b, writeReg_keys s x b⟩, writeReg_status s x b⟩⟩

/-- The zero extension of NNN is the word with class 0 and low bits NNN (R74). -/
theorem zext16_eq_append (nnn : BitVec 12) : zext16 nnn = 0x0#4 ++ nnn :=
  BitVec.setWidth_eq_append (by decide)

/-- Settles O23: LD writes NN to V[X] (`exec_ld`), and `writeReg_frame` is the rest of the state (R120). -/
theorem ldLoadsTheImmediate : Obligations.LdLoadsTheImmediate := by
  unfold Obligations.LdLoadsTheImmediate
  intro x nn
  exact ⟨decode_ld_word x nn, fun s => ⟨_, exec_ld x nn s, readReg_writeReg_same s x nn, writeReg_frame s x nn⟩⟩

/-- Settles O24: ADD writes the 8-bit sum to V[X] (`exec_add`), whose value is the sum modulo 256, and `writeReg_frame`
leaves VF alone unless X is 15 (R121). -/
theorem addWrapsAndWritesNoFlag : Obligations.AddWrapsAndWritesNoFlag := by
  unfold Obligations.AddWrapsAndWritesNoFlag
  intro x nn
  refine ⟨decode_add_word x nn, fun s => ⟨_, exec_add x nn s, ?sum, writeReg_frame s x _⟩⟩
  case sum =>
    rw [readReg_writeReg_same]
    exact BitVec.toNat_add (s.readReg x) nn

/-- Settles O25: LD I writes the zero extension of NNN to I alone (`exec_ldi`), and its top four bits are the zero class of
`zext16_eq_append` (R122). -/
theorem ldiLoadsTheIndexRegister : Obligations.LdiLoadsTheIndexRegister := by
  unfold Obligations.LdiLoadsTheIndexRegister
  intro nnn
  refine ⟨decode_ldi_word nnn, fun s => ⟨_, exec_ldi nnn s, zext16_toNat nnn, ?upperBits, fun _ => rfl, rfl,
    ⟨fun _ _ => rfl, rfl⟩, ⟨fun _ => rfl, ⟨rfl, rfl⟩, ⟨rfl, rfl, rfl⟩, rfl⟩⟩⟩
  case upperBits =>
    calc classField (zext16 nnn)
      _ = classField (0x0#4 ++ nnn) := by rw [zext16_eq_append]
      _ = 0 := classField_nnn 0x0#4 nnn

end Sys2Proof.Machine
end

section
/-! The display (spec/43_display.md): CLS, what a draw does to every pixel and to VF, and DRW past the end of memory. -/

namespace Sys2Proof.Machine

/-! ### CLS -/

/-- Settles O21: the word of CLS is what `encode_decode` gives back, and `exec_cls` is the effect, whose blank display reads
false by `pixel_blank` (R130). -/
theorem clsClearsEveryPixel : Obligations.ClsClearsEveryPixel := by
  unfold Obligations.ClsClearsEveryPixel
  refine ⟨fun w => ⟨fun h => ?onlyWord, ?itsWord⟩, fun s => ⟨_, exec_cls s, pixel_blank, rfl, fun _ => rfl, rfl, rfl,
    ⟨fun _ => rfl, ⟨rfl, rfl⟩, ⟨rfl, rfl, rfl⟩, rfl⟩⟩⟩
  case onlyWord =>
    calc w
      _ = encode (decode w) := (encode_decode w).symm
      _ = 0x00E0 := by rw [h]; rfl
  case itsWord =>
    rintro rfl
    exact decode_of_class_cls (by decide) (by decide)

/-! ### Where a sprite lands (R131 to R133) -/

/-- The landing of a sprite pixel in the model's terms: the wrapped sums and the row's bit. -/
theorem spriteLands_iff (s : State) (x y : Reg) (r c : Nat) (px : Column) (py : Row) :
    SpriteLands s x y r c px py ↔ px = wrapColumn (s.originColumn x + c) ∧ py = wrapRow (s.originRow y + r) ∧
      spriteBit (s.mem.read (s.i.toNat + r)) c = true := by
  rw [Fin.ext_iff, Fin.ext_iff]
  rfl

/-- What a sprite covers is what the model's drawing loop hits. -/
theorem spriteCovers_iff (s : State) (x y : Reg) (n : Nat) (px : Column) (py : Row) :
    SpriteCovers s x y n px py ↔
      spriteHits s.mem s.i.toNat (s.originColumn x) (s.originRow y) n px py = true := by
  simp only [SpriteCovers, spriteLands_iff, spriteHits_iff]

/-- No two set sprite pixels land on one pixel: the screen is wider and higher than a sprite (R138). -/
theorem spriteLands_inj {s : State} {x y : Reg} {r c r' c' : Nat} {px : Column} {py : Row} (hr : r < 32) (hr' : r' < 32)
    (hc : c < 8) (hc' : c' < 8) (h : SpriteLands s x y r c px py) (h' : SpriteLands s x y r' c' px py) :
    r = r' ∧ c = c' := by
  obtain ⟨hpx, hpy, -⟩ := (spriteLands_iff s x y r c px py).1 h
  obtain ⟨hpx', hpy', -⟩ := (spriteLands_iff s x y r' c' px py).1 h'
  exact ⟨wrapRow_inj hr hr' (hpy.symm.trans hpy'), wrapColumn_inj hc hc' (hpx.symm.trans hpx')⟩

theorem not_spriteCovers_zero (s : State) (x y : Reg) (px : Column) (py : Row) : ¬ SpriteCovers s x y 0 px py := by
  rintro ⟨r, -, hr, -⟩
  exact Nat.not_lt_zero r hr

/-- A sprite covers some pixel exactly when it has a 1 bit, because with the wrap every set bit lands (R132). -/
theorem exists_spriteCovers_iff (s : State) (x y : Reg) (n : Nat) :
    (∃ px py, SpriteCovers s x y n px py) ↔
      ∃ r c : Nat, r < n ∧ c < 8 ∧ (s.readByte (s.i.toNat + r)).getLsbD (7 - c) = true := by
  constructor
  · rintro ⟨_, _, r, c, hr, hc, -, -, hbit⟩
    exact ⟨r, c, hr, hc, hbit⟩
  · rintro ⟨r, c, hr, hc, hbit⟩
    exact ⟨_, _, r, c, hr, hc, (spriteLands_iff s x y r c _ _).2 ⟨rfl, rfl, hbit⟩⟩

/-- What a sprite covers depends on memory, I and the two coordinate registers alone (R131 to R133). -/
theorem spriteCovers_congr {s t : State} {x y : Reg} (hm : t.mem = s.mem) (hi : t.i = s.i)
    (hx : t.readReg x = s.readReg x) (hy : t.readReg y = s.readReg y) (n : Nat) (px : Column) (py : Row) :
    SpriteCovers t x y n px py ↔ SpriteCovers s x y n px py := by
  simp only [SpriteCovers, SpriteLands, State.readByte, hm, hi, hx, hy]

/-! ### The two outcomes of DRW (R134, R136) -/

theorem spriteInBounds_eq_false_iff (s : State) (n : Nat) :
    spriteInBounds s.i.toNat n = false ↔ SpritePastEnd s n := by
  rw [← Bool.not_eq_true, spriteInBounds_iff, SpritePastEnd]
  omega

/-- The state a completed draw leaves: VF, the display and `dirty` written (R134). -/
def State.afterDraw (s : State) (x y : Reg) (n : BitVec 4) : State :=
  { s.writeCollision (s.drawn x y n).collided with display := (s.drawn x y n).display, dirty := true }

theorem exec_drw_of_not_pastEnd {s : State} {n : BitVec 4} (h : ¬ SpritePastEnd s n.toNat) (x y : Reg) :
    exec (.drw x y n) s = .next (s.afterDraw x y n) := by
  rw [← spriteInBounds_eq_false_iff, Bool.not_eq_false] at h
  exact exec_drw_ok h x y

theorem exec_drw_of_pastEnd {s : State} {n : BitVec 4} (h : SpritePastEnd s n.toNat) (x y : Reg) :
    exec (.drw x y n) s = .next (takeFatal s.pc0 ⟨.spriteOutOfBounds, max s.i.toNat 4096⟩ s) :=
  exec_drw_fatal ((spriteInBounds_eq_false_iff s n.toNat).2 h) x y

/-! ### What a completed draw leaves -/

/-- The frame of a completed draw: it writes VF, the display and `dirty`, and nothing else (R134, R141). -/
theorem afterDraw_frame (s : State) (x y : Reg) (n : BitVec 4) :
    (s.afterDraw x y n).dirty = true ∧ SameRegsBut 15 s (s.afterDraw x y n) ∧ (s.afterDraw x y n).i = s.i ∧
      (s.afterDraw x y n).pc = s.pc ∧ SameRest s (s.afterDraw x y n) :=
  ⟨rfl, fun _ h => readReg_writeCollision_other s _ h, rfl, rfl,
    ⟨fun _ => rfl, ⟨rfl, rfl⟩, ⟨rfl, rfl, rfl⟩, rfl⟩⟩

/-- A draw toggles exactly the pixels its sprite covers (R134). -/
theorem afterDraw_pixel_iff (s : State) (x y : Reg) (n : BitVec 4) (px : Column) (py : Row) :
    (s.afterDraw x y n).pixel px py = true ↔ ¬ (s.pixel px py = true ↔ SpriteCovers s x y n.toNat px py) := by
  have hxor : (s.afterDraw x y n).pixel px py =
      (s.pixel px py ^^ spriteHits s.mem s.i.toNat (s.originColumn x) (s.originRow y) n.toNat px py) :=
    plotSprite_pixel s.mem s.i.toNat (s.originColumn x) (s.originRow y) n ⟨s.display, false⟩ px py
  rw [hxor, spriteCovers_iff, ← Bool.eq_iff_iff, Bool.xor_iff_ne]

/-- The collision: some pixel the sprite covers was on before the draw (R135). -/
theorem drawn_collided_iff (s : State) (x y : Reg) (n : BitVec 4) :
    (s.drawn x y n).collided = true ↔ ∃ px py, SpriteCovers s x y n.toNat px py ∧ s.pixel px py = true := by
  simp only [State.drawn, plotSprite_collided, spriteCovers_iff, Bool.false_eq_true, false_or]
  rfl

theorem afterDraw_readFlag (s : State) (x y : Reg) (n : BitVec 4) :
    (s.afterDraw x y n).readReg 15 = collisionFlag (s.drawn x y n).collided :=
  readFlag_writeCollision s _

theorem collisionFlag_eq_one_iff (b : Bool) : collisionFlag b = 1 ↔ b = true := by
  cases b <;> decide

theorem collisionFlag_eq_zero_iff (b : Bool) : collisionFlag b = 0 ↔ b = false := by
  cases b <;> decide

/-- VF after a draw is 1 exactly on a collision (R135). -/
theorem afterDraw_flag_eq_one_iff (s : State) (x y : Reg) (n : BitVec 4) :
    (s.afterDraw x y n).readReg 15 = 1 ↔ ∃ px py, SpriteCovers s x y n.toNat px py ∧ s.pixel px py = true := by
  rw [afterDraw_readFlag, collisionFlag_eq_one_iff, drawn_collided_iff]

/-- VF after a draw is 0 exactly without a collision (R135). -/
theorem afterDraw_flag_eq_zero_iff (s : State) (x y : Reg) (n : BitVec 4) :
    (s.afterDraw x y n).readReg 15 = 0 ↔ ¬ ∃ px py, SpriteCovers s x y n.toNat px py ∧ s.pixel px py = true := by
  rw [afterDraw_readFlag, collisionFlag_eq_zero_iff, ← drawn_collided_iff, Bool.not_eq_true]

/-- Settles O27: a completed draw leaves `afterDraw`, whose pixels, flag and frame have their lemmas above; a draw past the
end takes its FATAL condition, which keeps `dirty` (R131 to R135, R138, R140). -/
theorem drwTogglesTheSpriteAndReportsCollision : Obligations.DrwTogglesTheSpriteAndReportsCollision := by
  unfold Obligations.DrwTogglesTheSpriteAndReportsCollision
  refine ⟨fun x y n s h => ⟨_, exec_drw_of_not_pastEnd h x y, afterDraw_pixel_iff s x y n, ?single,
    (afterDraw_flag_eq_one_iff s x y n).2, (afterDraw_flag_eq_zero_iff s x y n).2, afterDraw_frame s x y n⟩,
    fun x y n s h => ⟨_, exec_drw_of_pastEnd h x y, rfl⟩⟩
  case single =>
    intro px py r c r' c' hr hr' hc hc'
    exact spriteLands_inj (by omega) (by omega) hc hc'

/-- Settles O28: the handler of the advanced state takes the FATAL condition at the pc the cycle began with (`advance_pc0`),
and below 0x1000 the bounds check is arithmetic (R136). -/
theorem drwPastTheEndHaltsPrecisely : Obligations.DrwPastTheEndHaltsPrecisely := by
  unfold Obligations.DrwPastTheEndHaltsPrecisely
  refine ⟨fun x y n s hr hpc hd h => ?halts, fun n s hi => ⟨?pastEnd, Nat.max_eq_right (by omega)⟩⟩
  case halts =>
    rw [step_of_canFetch hr ((canFetch_iff s).2 hpc), hd, exec_drw_of_pastEnd (s := s.advance) h, advance_pc0]
    rfl
  case pastEnd =>
    unfold SpritePastEnd
    omega

/-- Settles O30: a sprite without rows is never past the end and covers no pixel (`not_spriteCovers_zero`), so the draw
toggles nothing and finds no collision (R137). -/
theorem drwOfZeroRowsClearsTheFlag : Obligations.DrwOfZeroRowsClearsTheFlag := by
  unfold Obligations.DrwOfZeroRowsClearsTheFlag
  intro x y s
  have hin : ¬ SpritePastEnd s (0 : BitVec 4).toNat := fun ⟨hrow, _⟩ => Nat.not_lt_zero 0 hrow
  have hnone : ∀ px py, ¬ SpriteCovers s x y (0 : BitVec 4).toNat px py := not_spriteCovers_zero s x y
  refine ⟨_, exec_drw_of_not_pastEnd hin x y, fun px py => ?pixels, ?flag, afterDraw_frame s x y 0⟩
  case pixels =>
    rw [Bool.eq_iff_iff, afterDraw_pixel_iff, iff_false_right (hnone px py), not_not]
  case flag =>
    rw [afterDraw_flag_eq_zero_iff]
    rintro ⟨px, py, hc, -⟩
    exact hnone px py hc

/-! ### Two draws of one sprite (R139) -/

section TwoDraws

variable {s : State} {x y : Reg} {n : BitVec 4}
  (hx : (s.afterDraw x y n).readReg x = s.readReg x) (hy : (s.afterDraw x y n).readReg y = s.readReg y)
include hx hy

/-- With its coordinate registers kept, the second draw covers what the first covered. -/
theorem spriteCovers_afterDraw (px : Column) (py : Row) :
    SpriteCovers (s.afterDraw x y n) x y n.toNat px py ↔ SpriteCovers s x y n.toNat px py :=
  spriteCovers_congr (s := s) (t := s.afterDraw x y n) rfl rfl hx hy n.toNat px py

/-- Toggling the same pixels twice restores them. -/
theorem afterDraw_afterDraw_pixel (px : Column) (py : Row) :
    ((s.afterDraw x y n).afterDraw x y n).pixel px py = s.pixel px py := by
  rw [Bool.eq_iff_iff, afterDraw_pixel_iff, afterDraw_pixel_iff, spriteCovers_afterDraw hx hy]
  tauto

/-- A covered pixel is on at the second draw exactly when the first draw turned it on. -/
theorem afterDraw_afterDraw_flag_eq_one_iff :
    ((s.afterDraw x y n).afterDraw x y n).readReg 15 = 1 ↔
      ∃ px py, SpriteCovers s x y n.toNat px py ∧ s.pixel px py = false := by
  rw [afterDraw_flag_eq_one_iff]
  refine exists_congr fun px => exists_congr fun py => ?_
  rw [spriteCovers_afterDraw hx hy, afterDraw_pixel_iff, ← Bool.not_eq_true]
  tauto

end TwoDraws

/-- Settles O32: the second draw is a draw of the same sprite (`spriteCovers_afterDraw`), so it restores the pixels and its
flag finds what the first turned on; on a blank display that is every covered pixel, and one is covered exactly when the
sprite has a 1 bit (`exists_spriteCovers_iff`) (R139). -/
theorem doubleDrawRestoresTheDisplay : Obligations.DoubleDrawRestoresTheDisplay := by
  unfold Obligations.DoubleDrawRestoresTheDisplay
  intro x y n s h
  refine ⟨_, exec_drw_of_not_pastEnd h x y, fun hx hy => ⟨_, exec_drw_of_not_pastEnd (s := s.afterDraw x y n) h x y,
    afterDraw_afterDraw_pixel hx hy, ?zeroOrOne, afterDraw_afterDraw_flag_eq_one_iff hx hy, fun hblank => ?blank⟩⟩
  case zeroOrOne =>
    rw [afterDraw_readFlag, collisionFlag_eq_zero_iff, collisionFlag_eq_one_iff]
    exact (Bool.eq_false_or_eq_true _).symm
  case blank =>
    rw [afterDraw_afterDraw_flag_eq_one_iff hx hy, ← exists_spriteCovers_iff s x y]
    simp only [hblank, and_true]

end Sys2Proof.Machine
end

section
/-! FATAL conditions and the host's actions (spec/60_exceptions.md): what a halting cycle leaves, what only reset can undo,
the loader, the timers and the latches. -/

namespace Sys2Proof.Machine

/-! ### The cycles that end HALTED (R152, R154) -/

/-- The one handler that halts a RUNNING state is DRW's, when its sprite passes the end of memory (R136). -/
theorem exec_halted_cases {i : Instr} {s t : State} {k : FatalKind} {p : Word} {a : Nat} (h : exec i s = .next t)
    (hr : s.status = .running) (hh : t.status = .halted k p a) :
    ∃ x y n, i = .drw x y n ∧ SpritePastEnd s n.toNat ∧
      t = takeFatal s.pc0 ⟨.spriteOutOfBounds, max s.i.toNat 4096⟩ s := by
  have hkept : t.status ≠ s.status := by simp [hh, hr]
  cases i with
  | drw x y n =>
    by_cases hend : SpritePastEnd s n.toNat
    · rw [exec_drw_of_pastEnd hend] at h
      cases h
      exact ⟨x, y, n, rfl, hend, rfl⟩
    · rw [exec_drw_of_not_pastEnd hend] at h
      cases h
      exact absurd rfl hkept
  | cls => cases h; exact absurd rfl hkept
  | jp nnn => cases h; exact absurd rfl hkept
  | ld x nn => cases h; exact absurd rfl hkept
  | add x nn => cases h; exact absurd rfl hkept
  | ldi nnn => cases h; exact absurd rfl hkept
  | unhandled w => cases h; exact absurd rfl hkept

/-- A cycle that ends HALTED takes, at the pc it began with, the condition of a failed fetch or of a sprite past the end. -/
theorem step_halted_cases {s t : State} {k : FatalKind} {p : Word} {a : Nat} (h : step s = .next t)
    (hh : t.status = .halted k p a) :
    ∃ f, t = takeFatal s.pc f s ∧
      ((f = ⟨.fetchOutOfBounds, s.pc.toNat⟩ ∧ 4094 < s.pc.toNat) ∨
       (f = ⟨.spriteOutOfBounds, max s.i.toNat 4096⟩ ∧ s.pc.toNat ≤ 4094 ∧
        ∃ x y n, decode s.fetchWord = .drw x y n ∧ SpritePastEnd s n.toNat)) := by
  obtain ⟨hr, ⟨hf, ht⟩ | ⟨hf, he⟩⟩ := step_cases h
  · exact ⟨_, ht, .inl ⟨rfl, (canFetch_eq_false_iff s).1 hf⟩⟩
  · obtain ⟨x, y, n, hd, hend, ht⟩ := exec_halted_cases he hr hh
    rw [advance_pc0] at ht
    exact ⟨_, ht, .inr ⟨rfl, (canFetch_iff s).1 hf, x, y, n, hd, hend⟩⟩

/-- Settles O14: a cycle that ends HALTED took a FATAL condition at its own pc (`step_halted_cases`), which writes the
status alone (R154). -/
theorem fatalIsPrecise : Obligations.FatalIsPrecise := by
  unfold Obligations.FatalIsPrecise
  intro s t k p a h hh
  obtain ⟨f, rfl, -⟩ := step_halted_cases h hh
  cases hh
  exact ⟨rfl, rfl⟩

/-- A push raises STACK_OVERFLOW exactly on a full stack (R31). -/
theorem stackPush_eq_error_iff (a : Word) (s : State) (f : Fatal) :
    stackPush a s = .error f ↔ s.sp.val = 16 ∧ f = ⟨.stackOverflow, 16⟩ := by
  rcases stackPush_cases a s with ⟨hfull, hpush⟩ | ⟨hfree, hpush⟩
  · simp [hpush, hfull, eq_comm]
  · simp [hpush, hfree.ne]

/-- A pop raises STACK_UNDERFLOW exactly on an empty stack (R32). -/
theorem stackPop_eq_error_iff (s : State) (f : Fatal) :
    stackPop s = .error f ↔ s.sp.val = 0 ∧ f = ⟨.stackUnderflow, 0⟩ := by
  rcases stackPop_cases s with ⟨hempty, hpop⟩ | ⟨_, hused, hpop⟩
  · simp [hpop, hempty, eq_comm]
  · simp [hpop, hused]

/-- Settles O15: the two causes a cycle can meet are those of `step_halted_cases`, and the stack primitives raise the other
two on a full and on an empty stack (R152). -/
theorem fatalCausesAreTheTable : Obligations.FatalCausesAreTheTable := by
  unfold Obligations.FatalCausesAreTheTable
  refine ⟨?cycle, fun s a f => stackPush_eq_error_iff a s f, stackPop_eq_error_iff, rfl, rfl, rfl, rfl⟩
  case cycle =>
    intro s t k p a h hh
    obtain ⟨f, rfl, ⟨rfl, hpc⟩ | ⟨rfl, hpc, x, y, n, hd, hrow, hlast⟩⟩ := step_halted_cases h hh
    · cases hh
      exact .inl ⟨rfl, hpc, rfl⟩
    · cases hh
      exact .inr ⟨rfl, hpc, x, y, n, hd, hrow, hlast, rfl⟩

/-! ### Schedules without a reset (R156, R173) -/

/-- What every move but reset keeps, every schedule without a reset keeps. -/
theorem run_preserves {p : Config.Params} {P : System → Prop}
    (hmove : ∀ {m : Move} {σ τ : System}, m ≠ .reset → σ.move p m = some τ → P σ → P τ)
    {ms : List Move} {σ τ : System} (hms : .reset ∉ ms) (h : σ.run p ms = some τ) (hσ : P σ) : P τ := by
  induction ms generalizing σ with
  | nil => cases h; exact hσ
  | cons m ms ih =>
    obtain ⟨hm, hms⟩ := List.ne_and_not_mem_of_not_mem_cons hms
    obtain ⟨ρ, hρ, h⟩ := run_cons h
    exact ih hms h (hmove hm.symm hρ hσ)

/-- No move but reset changes a status other than RUNNING: no cycle is enabled, and Stop acts on RUNNING alone (R99, R173). -/
theorem move_keeps_status_of_not_running {p : Config.Params} {m : Move} {σ τ : System} (hm : m ≠ .reset)
    (h : σ.move p m = some τ) (hs : σ.core.status ≠ .running) : τ.core.status = σ.core.status := by
  rcases move_cases h with ⟨-, -, -, hstep, -⟩ | ⟨hreset, -⟩ | ⟨_, -, -, hload⟩ | ⟨-, -, -, -, -, hhost⟩
  case inl => exact absurd (step_cases hstep).1 hs
  case inr.inl => exact absurd hreset hm
  case inr.inr.inl => obtain ⟨-, -, e⟩ | ⟨-, -, e⟩ := hload <;> rw [e]
  case inr.inr.inr =>
    rcases hhost with e | e | e | ⟨k, v, e⟩ | e
    · rw [e]
    · rw [e, ackDisplay_status]
    · rw [e, timerTick_status]
    · rw [e, setKey_status]
    · obtain ⟨hr, -⟩ | ⟨-, hstop⟩ := stopAction_cases σ.core
      · exact absurd hr hs
      · rw [e, hstop]

/-- Settles O39: every move of the schedule keeps the HALTED status (`move_keeps_status_of_not_running`), so by
`run_preserves` the schedule does (R156). -/
theorem firstFatalRecordStaysUntilReset : Obligations.FirstFatalRecordStaysUntilReset := by
  unfold Obligations.FirstFatalRecordStaysUntilReset
  intro p ms σ τ k q a hhalted hms h
  refine run_preserves (P := fun ρ => ρ.core.status = .halted k q a) (fun hm hmove hρ => ?_) hms h hhalted
  exact (move_keeps_status_of_not_running hm hmove (by simp [hρ])).trans hρ

/-- Settles O40: Stop is the case split of `stopAction_cases`, a STOPPED step is refused, and STOPPED is a status no move but
reset changes (R173). -/
theorem stopEndsTheRunUntilReset : Obligations.StopEndsTheRunUntilReset := by
  unfold Obligations.StopEndsTheRunUntilReset
  refine ⟨fun s hr => ?running, fun s hr => ?otherStatus, fun p σ => rfl, fun s t hstopped => ?noCycle,
    fun p m σ τ hstopped h hm => ?stays⟩
  case running =>
    obtain ⟨-, e⟩ | ⟨hne, -⟩ := stopAction_cases s
    · exact e
    · exact absurd hr hne
  case otherStatus =>
    obtain ⟨hrun, -⟩ | ⟨-, e⟩ := stopAction_cases s
    · exact absurd hrun hr
    · exact e
  case noCycle => simp [step_of_stopped hstopped]
  case stays => exact (move_keeps_status_of_not_running hm h (by simp [hstopped])).trans hstopped

/-! ### LoadImage (R168) -/

/-- The program area takes the copied bytes. -/
theorem loaded_image_in_bounds (b : List Byte) : 0x200 + (b.take 3584).length ≤ 4096 :=
  Nat.add_le_add_left (List.length_take_le 3584 b) 0x200

/-- The bytes LoadImage copies are the first 3584 of the image, from 0x200 on. -/
theorem read_loaded_image {m : Memory} (hm : m.wf) (b : List Byte) {j : Nat} (hj : j < min b.length 3584) :
    b[j]? = some ((m.writeBytes 0x200 (b.take 3584)).read (0x200 + j)) := by
  rw [read_writeBytes hm (loaded_image_in_bounds b), if_pos (Nat.le_add_right _ _), Nat.add_sub_cancel_left,
    List.getElem?_take_of_lt (by omega), List.getElem?_eq_getElem (by omega), Option.getD_some]

/-- Outside the copied image memory reads as before. -/
theorem read_outside_loaded_image {m : Memory} (hm : m.wf) (b : List Byte) {a : Nat}
    (ha : a < 0x200 ∨ 0x200 + min b.length 3584 ≤ a) :
    (m.writeBytes 0x200 (b.take 3584)).read a = m.read a := by
  rw [read_writeBytes hm (loaded_image_in_bounds b)]
  split_ifs with hlow
  · have hend : (b.take 3584).length ≤ a - 0x200 := by rw [List.length_take]; omega
    rw [List.getElem?_eq_none hend, Option.getD_none]
  · rfl

/-- No cycle stores to memory (R54). -/
theorem step_keeps_mem {s t : State} (h : step s = .next t) : t.mem = s.mem := by
  obtain ⟨-, ⟨-, rfl⟩ | ⟨-, he⟩⟩ := step_cases h
  · rfl
  · exact (exec_keeps he).1

@[simp] theorem stopAction_mem (s : State) : (stopAction s).mem = s.mem := by
  obtain ⟨-, e⟩ | ⟨-, e⟩ := stopAction_cases s <;> rw [e]

/-- A launched system stays launched and its memory stays as it is under every move but reset (R62, R168). -/
theorem move_keeps_launched_mem {p : Config.Params} {m : Move} {σ τ : System} (hm : m ≠ .reset)
    (h : σ.move p m = some τ) (hl : σ.phase = .launched) : τ.phase = .launched ∧ τ.core.mem = σ.core.mem := by
  rcases move_cases h with ⟨-, -, hphase, hstep, -⟩ | ⟨hreset, -⟩ | ⟨_, -, hfresh, -⟩ | ⟨-, -, -, hphase, -, hhost⟩
  case inl => exact ⟨hphase, step_keeps_mem hstep⟩
  case inr.inl => exact absurd hreset hm
  case inr.inr.inl => simp [hl] at hfresh
  case inr.inr.inr =>
    refine ⟨hphase.trans hl, ?_⟩
    rcases hhost with e | e | e | ⟨k, v, e⟩ | e
    · rw [e]
    · rw [e, ackDisplay_mem]
    · rw [e, timerTick_mem]
    · rw [e, setKey_mem]
    · rw [e, stopAction_mem]

/-- A schedule that begins with a cycle and holds no reset ends launched, with the memory it began with. -/
theorem run_from_cycle_keeps_launched_mem {p : Config.Params} {ms : List Move} {σ τ : System}
    (h : σ.run p (.cycle :: ms) = some τ) (hms : .reset ∉ ms) :
    τ.phase = .launched ∧ τ.core.mem = σ.core.mem := by
  obtain ⟨ρ, hρ, h⟩ := run_cons h
  have hσ : σ.phase = .launched := (cycle_cases hρ).1
  refine run_preserves (P := fun ρ => ρ.phase = .launched ∧ ρ.core.mem = σ.core.mem) (fun hm hmove hP => ?_) hms h
    (move_keeps_launched_mem (by simp) hρ hσ)
  obtain ⟨hphase, hmem⟩ := move_keeps_launched_mem hm hmove hP.1
  exact ⟨hphase, hmem.trans hP.2⟩

/-- No cycle is enabled in a system that is not launched (R183). -/
theorem cycle_eq_none_of_not_launched {σ : System} (h : σ.phase ≠ .launched) : σ.cycle = none :=
  Option.eq_none_iff_forall_ne_some.2 fun _ hc => h (cycle_cases hc).1

/-- No LoadImage is enabled in a system that is not fresh (R168). -/
theorem load_eq_none_of_not_fresh {σ : System} (h : σ.phase ≠ .fresh) (p : Config.Params) (b : List Byte) :
    σ.load p b = none :=
  Option.eq_none_iff_forall_ne_some.2 fun _ hl => h (load_cases hl).1

/-- Settles O44: `loadImage_cases` with the two reads above is the action, a refused load leaves an unlaunched system, and
from the first cycle on the system is launched with its memory fixed (`run_from_cycle_keeps_launched_mem`) (R168). -/
theorem loadImageCopiesTheProgram : Obligations.LoadImageCopiesTheProgram := by
  unfold Obligations.LoadImageCopiesTheProgram
  refine ⟨fun q b s hm => ?action, fun p b σ τ hlarge h => ?refused, fun p b ms σ τ h hms => ?afterCycle⟩
  case action =>
    obtain ⟨hlong, hfail, hload⟩ | ⟨hfits, hload⟩ := loadImage_cases q b s
    · exact ⟨fun _ => hload, fun hfits => absurd ⟨hlong, hfail⟩ hfits⟩
    · exact ⟨fun hlarge => absurd hlarge hfits, fun _ => ⟨_, hload, fun _ => read_loaded_image hm b,
        fun _ => read_outside_loaded_image hm b, rfl⟩⟩
  case refused =>
    obtain ⟨-, ⟨haccepted, -⟩ | ⟨-, hphase, hcore⟩⟩ := load_cases h
    · exact absurd hlarge haccepted
    · exact ⟨hcore, cycle_eq_none_of_not_launched (by simp [hphase])⟩
  case afterCycle =>
    obtain ⟨hphase, hmem⟩ := run_from_cycle_keeps_launched_mem h hms
    exact ⟨fun a => congrArg (Memory.read · a) hmem, load_eq_none_of_not_fresh (by simp [hphase]) p b⟩

/-! ### The timers and the latches (R171, R172) -/

/-- A tick takes 1 from a timer above 0, and 0 is where truncated subtraction stays too (R171). -/
theorem countDown_toNat (t : Byte) : (countDown t).toNat = t.toNat - 1 := by
  unfold countDown
  split_ifs with h
  · exact BitVec.toNat_sub_of_le (y := 1) h
  · omega

/-- Settles O41: both timers count down (`countDown_toNat`), and no other field is written (R171). -/
theorem timerTickCountsDownToZero : Obligations.TimerTickCountsDownToZero := by
  unfold Obligations.TimerTickCountsDownToZero
  exact fun s => ⟨countDown_toNat s.dt, countDown_toNat s.st, rfl, fun p σ => rfl⟩

theorem setKey_get_same (k : Key) (v : Bool) (s : State) : (setKey k v s).keys.get k = v := by
  simp [Vector.get_eq_getElem]

theorem setKey_get_other {j k : Key} (h : j ≠ k) (v : Bool) (s : State) :
    (setKey k v s).keys.get j = s.keys.get j := by
  have hne : k.val ≠ j.val := Fin.val_ne_of_ne h.symm
  simp [Vector.get_eq_getElem, hne]

/-- Settles O42: `setKey_get_same` and `setKey_get_other` read the latches after the write, and no other field is written
(R172). -/
theorem setKeyWritesOneLatch : Obligations.SetKeyWritesOneLatch := by
  unfold Obligations.SetKeyWritesOneLatch
  exact fun k v s => ⟨setKey_get_same k v s, fun j h => setKey_get_other h v s, rfl, fun p σ => rfl⟩

end Sys2Proof.Machine
end

section
/-! The encoding's round trip and the dispatch table (spec/30_encoding.md R72, R76, R77): decoding an encoded instruction, and
which words no row selects. -/

namespace Sys2Proof

/-! ### The unhandled space (R77) -/

theorem inUnhandledSpace_iff (w : Word) :
    inUnhandledSpace w = true ↔
      w ≠ 0x00E0 ∧ classField w ∉ ([0x1, 0x6, 0x7, 0xA, 0xD] : List (BitVec 4)) := by
  unfold inUnhandledSpace classField
  rw [Bool.and_eq_true, bne_iff_ne, Bool.not_eq_true', ← Bool.not_eq_true, List.contains_iff_mem]

/-- 0x00E0 is the one class-0 word whose low 12 bits are 0x0E0 (R73). -/
theorem eq_cls_word_of_fields {w : Word} (h : classField w = 0x0) (hn : nnnField w = 0x0E0) : w = 0x00E0 :=
  calc w
    _ = 0x0#4 ++ nnnField w := (append_nnnField_of_class h).symm
    _ = 0x00E0 := by rw [hn]; rfl

theorem decode_of_inUnhandledSpace {w : Word} (h : inUnhandledSpace w = true) : decode w = .unhandled w := by
  obtain ⟨hcls, hclass⟩ := (inUnhandledSpace_iff w).1 h
  by_cases h0 : classField w = 0x0
  · exact decode_of_class_zero h0 fun hn => hcls (eq_cls_word_of_fields h0 hn)
  · exact decode_of_class_not_listed (List.not_mem_cons_of_ne_of_not_mem h0 hclass)

/-- The words that decode to UNHANDLED are those of the unhandled space (R77). -/
theorem decode_eq_unhandled_iff (w : Word) : decode w = .unhandled w ↔ inUnhandledSpace w = true := by
  refine ⟨fun h => (inUnhandledSpace_iff w).2 ⟨?notCls, ?notListed⟩, decode_of_inUnhandledSpace⟩
  case notCls =>
    rintro rfl
    revert h
    decide
  case notListed =>
    simp only [List.mem_cons, List.not_mem_nil, or_false]
    rintro (hc | hc | hc | hc | hc)
    · rw [decode_of_class_jp hc] at h; cases h
    · rw [decode_of_class_ld hc] at h; cases h
    · rw [decode_of_class_add hc] at h; cases h
    · rw [decode_of_class_ldi hc] at h; cases h
    · rw [decode_of_class_drw hc] at h; cases h

/-! ### The round trip (R76) -/

theorem decode_jp_word (nnn : BitVec 12) : decode (0x1#4 ++ nnn) = .jp nnn := by
  rw [decode_of_class_jp (classField_nnn 0x1#4 nnn), nnnField_nnn]

theorem decode_drw_word (x y : Reg) (n : BitVec 4) :
    decode (0xD#4 ++ regBits x ++ regBits y ++ n) = .drw x y n := by
  rw [decode_of_class_drw (classField_xyn 0xD#4 (regBits x) (regBits y) n), xField_xyn, yField_xyn, nField_xyn,
    regBits_toFin, regBits_toFin]

/-- Settles O1: each format's fields are read back from its word, and a well-formed UNHANDLED carries a word of the unhandled
space, which decodes to it (R70 to R76). -/
theorem decodeOfEncodeIsTheInstruction : Obligations.DecodeOfEncodeIsTheInstruction := by
  unfold Obligations.DecodeOfEncodeIsTheInstruction
  intro i hi
  cases i with
  | cls => exact decode_of_class_cls (w := 0x00E0) (by decide) (by decide)
  | jp nnn => exact decode_jp_word nnn
  | ld x nn => exact decode_ld_word x nn
  | add x nn => exact decode_add_word x nn
  | ldi nnn => exact decode_ldi_word nnn
  | drw x y n => exact decode_drw_word x y n
  | unhandled w => exact decode_of_inUnhandledSpace hi

/-- Every word decodes to a well-formed instruction: the one check is on UNHANDLED, which carries the word itself (R77). -/
theorem wellFormed_decode (w : Word) : (decode w).wellFormed = true := by
  cases hd : decode w with
  | unhandled u =>
    obtain rfl : u = w := Machine.decode_eq_unhandled hd
    exact (decode_eq_unhandled_iff u).1 hd
  | cls => rfl
  | jp nnn => rfl
  | ld x nn => rfl
  | add x nn => rfl
  | ldi nnn => rfl
  | drw x y n => rfl

/-- Settles O2: `wellFormed_decode`, and `encode_decode` gives the word back (R73, R76, R77). -/
theorem encodeOfDecodeIsTheWord : Obligations.EncodeOfDecodeIsTheWord := by
  unfold Obligations.EncodeOfDecodeIsTheWord
  exact fun w => ⟨wellFormed_decode w, encode_decode w⟩

/-! ### The rows of the dispatch table (R72) -/

/-- A class row selects the words of its class. -/
theorem and_mask_eq_iff_classField (w : Word) (c : BitVec 4) :
    w &&& 0xF000 = c ++ 0#12 ↔ classField w = c := by
  have hmask : w &&& 0xF000 = classField w ++ 0#12 := Laws.RowOfEncoding.mask_class w
  rw [hmask]
  refine ⟨fun h => ?_, fun h => by rw [h]⟩
  calc classField w
    _ = classField (classField w ++ 0#12) := (classField_nnn _ _).symm
    _ = c := by rw [h, classField_nnn]

/-- The row of CLS has the full mask, so it selects one word. -/
theorem and_full_mask (w : Word) : w &&& 0xFFFF = w :=
  BitVec.and_allOnes

/-- A word of the unhandled space is one that no row of the table selects (R72, R77). -/
theorem inUnhandledSpace_iff_no_row (w : Word) :
    inUnhandledSpace w = true ↔ ∀ row ∈ dispatchTable, w &&& row.mask ≠ row.pattern := by
  simp only [inUnhandledSpace_iff, dispatchTable, List.mem_cons, List.not_mem_nil, or_false, not_or, forall_eq_or_imp,
    forall_eq, and_full_mask]
  have hrow := fun c => (and_mask_eq_iff_classField w c).not.symm
  exact and_congr_right' <| and_congr (hrow 0x1) <| and_congr (hrow 0x6) <| and_congr (hrow 0x7) <|
    and_congr (hrow 0xA) (hrow 0xD)

/-- A row selects words of its pattern's class alone. -/
theorem classField_eq_of_row {w : Word} {row : TableRow} (hrow : row ∈ dispatchTable)
    (h : w &&& row.mask = row.pattern) : classField w = classField row.pattern := by
  have hfull : ∀ row ∈ dispatchTable, classField row.mask = BitVec.allOnes 4 := by decide
  calc classField w
    _ = classField w &&& classField row.mask := by rw [hfull row hrow, BitVec.and_allOnes]
    _ = classField (w &&& row.mask) := BitVec.extractLsb'_and.symm
    _ = classField row.pattern := by rw [h]

/-- The rows of the table have six different classes. -/
theorem row_eq_of_pattern_class : ∀ row ∈ dispatchTable, ∀ row' ∈ dispatchTable,
    classField row.pattern = classField row'.pattern → row = row' := by decide

/-- Settles O5: UNHANDLED is the unhandled space, which is the space outside every row, and two rows that select one word have
its class, so they are one row (R72, R73, R77). -/
theorem unhandledIsOutsideEveryRow : Obligations.UnhandledIsOutsideEveryRow := by
  unfold Obligations.UnhandledIsOutsideEveryRow
  refine fun w => ⟨(decode_eq_unhandled_iff w).trans (inUnhandledSpace_iff_no_row w), ?oneRow⟩
  case oneRow =>
    intro row hrow row' hrow' h h'
    refine row_eq_of_pattern_class row hrow row' hrow' ?_
    exact (classField_eq_of_row hrow h).symm.trans (classField_eq_of_row hrow' h')

/-- Settles O6: each word is decoded by evaluation (R72, R73). -/
theorem writtenOutWordsDecode : Obligations.WrittenOutWordsDecode := by
  unfold Obligations.WrittenOutWordsDecode
  decide

end Sys2Proof
end

section
/-! What a cycle leaves (spec/40_engine_cycle.md), said once for every operation, and from it the control flow, the frames of
a cycle (spec/10_state.md) and the invariant of the core. -/

namespace Sys2Proof.Machine

/-! ### Every outcome of a cycle -/

/-- What a cycle that completes leaves: the advanced state with what its operation writes (R93 to R97). -/
inductive Completed (s : State) : State → Prop where
  | cls : decode s.fetchWord = .cls → Completed s { s.advance with display := Display.blank, dirty := true }
  | jp (nnn : BitVec 12) : decode s.fetchWord = .jp nnn → Completed s { s.advance with pc := zext16 nnn }
  | ld (x : Reg) (nn : Byte) : decode s.fetchWord = .ld x nn → Completed s (s.advance.writeReg x nn)
  | add (x : Reg) (nn : Byte) : decode s.fetchWord = .add x nn →
      Completed s (s.advance.writeReg x (s.readReg x + nn))
  | ldi (nnn : BitVec 12) : decode s.fetchWord = .ldi nnn → Completed s { s.advance with i := zext16 nnn }
  | drw (x y : Reg) (n : BitVec 4) : decode s.fetchWord = .drw x y n → Completed s (s.advance.afterDraw x y n)
  | unhandled (w : Word) : decode s.fetchWord = .unhandled w → Completed s s.advance

theorem status_of_completed {s t : State} (h : Completed s t) : t.status = s.status := by
  cases h <;> rfl

/-- A handler either completes the cycle or is DRW's past the end of memory (R102). -/
theorem exec_completed_or_pastEnd {s t : State} (h : exec (decode s.fetchWord) s.advance = .next t) :
    Completed s t ∨ ∃ x y n, decode s.fetchWord = .drw x y n ∧ SpritePastEnd s n.toNat ∧
      t = takeFatal s.pc ⟨.spriteOutOfBounds, max s.i.toNat 4096⟩ s := by
  cases hd : decode s.fetchWord with
  | drw x y n =>
    rw [hd] at h
    by_cases hend : SpritePastEnd s n.toNat
    · rw [exec_drw_of_pastEnd (s := s.advance) hend, advance_pc0] at h
      cases h
      exact .inr ⟨x, y, n, rfl, hend, rfl⟩
    · rw [exec_drw_of_not_pastEnd (s := s.advance) hend] at h
      cases h
      exact .inl (.drw x y n hd)
  | cls => rw [hd] at h; cases h; exact .inl (.cls hd)
  | jp nnn => rw [hd] at h; cases h; exact .inl (.jp nnn hd)
  | ld x nn => rw [hd] at h; cases h; exact .inl (.ld x nn hd)
  | add x nn => rw [hd] at h; cases h; exact .inl (.add x nn hd)
  | ldi nnn => rw [hd] at h; cases h; exact .inl (.ldi nnn hd)
  | unhandled w => rw [hd] at h; cases h; exact .inl (.unhandled w hd)

/-- A cycle takes, at its own pc, the condition of a failed fetch or of a sprite past the end, or it completes and stays
RUNNING (R90 to R102). -/
theorem step_fatal_or_completed {s t : State} (h : step s = .next t) :
    (∃ f, t = takeFatal s.pc f s ∧
      ((f = ⟨.fetchOutOfBounds, s.pc.toNat⟩ ∧ 4094 < s.pc.toNat) ∨
       (f = ⟨.spriteOutOfBounds, max s.i.toNat 4096⟩ ∧ s.pc.toNat ≤ 4094))) ∨
    (s.pc.toNat ≤ 4094 ∧ t.status = .running ∧ Completed s t) := by
  obtain ⟨hr, ⟨hf, ht⟩ | ⟨hf, he⟩⟩ := step_cases h
  · exact .inl ⟨_, ht, .inl ⟨rfl, (canFetch_eq_false_iff s).1 hf⟩⟩
  · have hpc := (canFetch_iff s).1 hf
    obtain hc | ⟨_, _, _, -, -, ht⟩ := exec_completed_or_pastEnd he
    · exact .inr ⟨hpc, (status_of_completed hc).trans hr, hc⟩
    · exact .inl ⟨_, ht, .inr ⟨rfl, hpc⟩⟩

/-! ### What a completed cycle does to each field -/

/-- Only JP replaces the advance (R27, R110). -/
theorem pc_of_completed {s t : State} (h : Completed s t) :
    (∃ nnn, decode s.fetchWord = .jp nnn ∧ t.pc = zext16 nnn) ∨
    ((∀ nnn, decode s.fetchWord ≠ .jp nnn) ∧ t.pc = s.advance.pc) := by
  cases h with
  | jp nnn hd => exact .inl ⟨nnn, hd, rfl⟩
  | cls hd => exact .inr ⟨by simp [hd], rfl⟩
  | ld x nn hd => exact .inr ⟨by simp [hd], rfl⟩
  | add x nn hd => exact .inr ⟨by simp [hd], rfl⟩
  | ldi nnn hd => exact .inr ⟨by simp [hd], rfl⟩
  | drw x y n hd => exact .inr ⟨by simp [hd], rfl⟩
  | unhandled w hd => exact .inr ⟨by simp [hd], rfl⟩

/-- Only LD I writes I (R29). -/
theorem i_of_completed {s t : State} (h : Completed s t) :
    (∃ nnn, decode s.fetchWord = .ldi nnn ∧ t.i = zext16 nnn) ∨ t.i = s.i := by
  cases h with
  | ldi nnn hd => exact .inl ⟨nnn, hd, rfl⟩
  | cls hd => exact .inr rfl
  | jp nnn hd => exact .inr rfl
  | ld x nn hd => exact .inr rfl
  | add x nn hd => exact .inr rfl
  | drw x y n hd => exact .inr rfl
  | unhandled w hd => exact .inr rfl

/-- A register that a completed cycle changed is the destination of LD or ADD, or the flag register of DRW (R25). -/
theorem written_reg_of_completed {s t : State} (h : Completed s t) {r : Reg} (hne : t.readReg r ≠ s.readReg r) :
    (∃ nn, decode s.fetchWord = .ld r nn) ∨ (∃ nn, decode s.fetchWord = .add r nn) ∨
      (r = 15 ∧ ∃ x y n, decode s.fetchWord = .drw x y n) := by
  cases h with
  | ld x nn hd =>
    obtain rfl : r = x := by_contra fun hrx => hne (readReg_writeReg_other s.advance nn hrx)
    exact .inl ⟨nn, hd⟩
  | add x nn hd =>
    obtain rfl : r = x := by_contra fun hrx => hne (readReg_writeReg_other s.advance _ hrx)
    exact .inr (.inl ⟨nn, hd⟩)
  | drw x y n hd =>
    obtain ⟨-, hregs, -⟩ := afterDraw_frame s.advance x y n
    exact .inr (.inr ⟨by_contra fun hr => hne (hregs r hr), x, y, n, hd⟩)
  | cls hd => exact absurd rfl hne
  | jp nnn hd => exact absurd rfl hne
  | ldi nnn hd => exact absurd rfl hne
  | unhandled w hd => exact absurd rfl hne

/-- The instruction is one of the two that write the display (R35). -/
def DrawsOrClears (i : Instr) : Prop := i = .cls ∨ ∃ (x y : Reg) (n : BitVec 4), i = .drw x y n

/-- CLS and DRW leave `dirty` set, and every other operation leaves the display and `dirty` as they were (R35, R36). -/
theorem display_of_completed {s t : State} (h : Completed s t) :
    (DrawsOrClears (decode s.fetchWord) ∧ t.dirty = true) ∨
    (¬ DrawsOrClears (decode s.fetchWord) ∧ t.display = s.display ∧ t.dirty = s.dirty) := by
  cases h with
  | cls hd => exact .inl ⟨.inl hd, rfl⟩
  | drw x y n hd => exact .inl ⟨.inr ⟨x, y, n, hd⟩, rfl⟩
  | jp nnn hd => exact .inr ⟨by simp [hd, DrawsOrClears], rfl, rfl⟩
  | ld x nn hd => exact .inr ⟨by simp [hd, DrawsOrClears], rfl, rfl⟩
  | add x nn hd => exact .inr ⟨by simp [hd, DrawsOrClears], rfl, rfl⟩
  | ldi nnn hd => exact .inr ⟨by simp [hd, DrawsOrClears], rfl, rfl⟩
  | unhandled w hd => exact .inr ⟨by simp [hd, DrawsOrClears], rfl, rfl⟩

/-- No cycle writes the stack, the timers or the latches (R30, R33, R34). -/
theorem step_keeps_peripherals {s t : State} (h : step s = .next t) :
    t.stack = s.stack ∧ t.sp = s.sp ∧ t.dt = s.dt ∧ t.st = s.st ∧ t.keys = s.keys := by
  obtain ⟨-, ⟨-, rfl⟩ | ⟨-, he⟩⟩ := step_cases h
  · exact ⟨rfl, rfl, rfl, rfl, rfl⟩
  · exact (exec_keeps he).2

/-! ### The invariant of the core -/

theorem recordOk_of_running {s : State} (h : s.status = .running) : s.recordOk := by
  simp [State.recordOk, h]

/-- Settles O35: a FATAL condition is taken at the pc and with the address its record allows, since I is at most 0xFFF; a
completed cycle has pc from the advance or from a jump, and I from LD I or from before (R28, R29, R136, R152, R154). -/
theorem everyStepKeepsTheInvariant : Obligations.EveryStepKeepsTheInvariant := by
  unfold Obligations.EveryStepKeepsTheInvariant
  intro s t ⟨hmem, hpc, hi, _⟩ h
  obtain ⟨f, rfl, hf⟩ | ⟨hfetch, hrun, hc⟩ := step_fatal_or_completed h
  · refine ⟨hmem, hpc, hi, ?record⟩
    case record =>
      obtain ⟨rfl, hpast⟩ | ⟨rfl, hfetch⟩ := hf
      · exact ⟨rfl, hpast, rfl⟩
      · exact ⟨rfl, hfetch, Nat.max_eq_right (by omega)⟩
  · refine ⟨step_keeps_mem h ▸ hmem, ?pc, ?index, recordOk_of_running hrun⟩
    case pc =>
      obtain ⟨nnn, -, e⟩ | ⟨-, e⟩ := pc_of_completed hc
      · rw [e]
        exact (zext16_le nnn).trans (by decide)
      · rw [e, advance_pc_toNat ((canFetch_iff s).2 hfetch)]
        omega
    case index =>
      obtain ⟨nnn, -, e⟩ | e := i_of_completed hc
      · rw [e]
        exact zext16_le nnn
      · rw [e]
        exact hi

/-- Settles O34: the reset memory is the empty list, and pc, I and the status are constants (R41). -/
theorem resetMeetsTheInvariant : Obligations.ResetMeetsTheInvariant := by
  unfold Obligations.ResetMeetsTheInvariant
  exact ⟨⟨.nil, by simp [State.reset]⟩, by decide, by decide, recordOk_of_running rfl⟩

/-! ### Control flow and frames -/

/-- Settles O16: a cycle that stays RUNNING completed, and `pc_of_completed` is its pc (R27, R112). -/
theorem onlyJpLeavesSequentialFlow : Obligations.OnlyJpLeavesSequentialFlow := by
  unfold Obligations.OnlyJpLeavesSequentialFlow
  intro s t h hrun
  obtain ⟨f, rfl, -⟩ | ⟨hfetch, -, hc⟩ := step_fatal_or_completed h
  · cases hrun
  · obtain ⟨nnn, hd, e⟩ | ⟨hd, e⟩ := pc_of_completed hc
    · refine ⟨fun nnn' hd' => ?_, fun hno => absurd hd (hno nnn)⟩
      obtain rfl : nnn = nnn' := Instr.jp.inj (hd.symm.trans hd')
      rw [e, zext16_toNat]
    · exact ⟨fun nnn hd' => absurd hd' (hd nnn),
        fun _ => by rw [e, advance_pc_toNat ((canFetch_iff s).2 hfetch)]⟩

/-- Settles O18: `step_keeps_mem` and `step_keeps_peripherals` (R30, R33, R34, R54). -/
theorem cyclesKeepMemoryStackTimersAndKeys : Obligations.CyclesKeepMemoryStackTimersAndKeys := by
  unfold Obligations.CyclesKeepMemoryStackTimersAndKeys
  intro s t h
  obtain ⟨hstack, hsp, htimersAndKeys⟩ := step_keeps_peripherals h
  exact ⟨fun a => congrArg (Memory.read · a) (step_keeps_mem h), ⟨hstack, hsp⟩, htimersAndKeys⟩

/-- Settles O19: taking a FATAL condition writes no register, and `written_reg_of_completed` and `i_of_completed` name what a
completed cycle writes (R25, R29). -/
theorem registersAreWrittenOnlyByTheirInstructions : Obligations.RegistersAreWrittenOnlyByTheirInstructions := by
  unfold Obligations.RegistersAreWrittenOnlyByTheirInstructions
  intro s t h
  obtain ⟨f, rfl, -⟩ | ⟨-, -, hc⟩ := step_fatal_or_completed h
  · exact ⟨fun r hne => absurd rfl hne, fun hne => absurd rfl hne⟩
  · refine ⟨fun r hne => written_reg_of_completed hc hne, fun hne => ?_⟩
    obtain ⟨nnn, hd, -⟩ | e := i_of_completed hc
    · exact ⟨nnn, hd⟩
    · exact absurd e hne

/-- Settles O20: taking a FATAL condition writes no pixel, and `display_of_completed` says what a completed cycle does to the
display (R35, R36). -/
theorem displayIsWrittenOnlyByClsAndDrw : Obligations.DisplayIsWrittenOnlyByClsAndDrw := by
  unfold Obligations.DisplayIsWrittenOnlyByClsAndDrw
  intro s t h
  obtain ⟨f, rfl, -⟩ | ⟨-, -, hc⟩ := step_fatal_or_completed h
  · exact ⟨fun hne => absurd ⟨fun _ _ => rfl, rfl⟩ hne, fun hrun => (by cases hrun), id⟩
  · obtain ⟨hd, hdirty⟩ | ⟨hd, hdisplay, hdirty⟩ := display_of_completed hc
    · exact ⟨fun _ => hd, fun _ _ => hdirty, fun _ => hdirty⟩
    · exact ⟨fun hne => absurd ⟨fun px py => congrArg (Display.pixel · px py) hdisplay, hdirty⟩ hne,
        fun _ hd' => absurd hd' hd, hdirty.trans⟩

/-! ### Single cycles: the placed word, no cycle, and a failed draw -/

/-- Outside the written range memory reads as before. -/
theorem read_outside_writeBytes {m : Memory} (hm : m.wf) {k : Nat} {bs : List Byte} (hk : k + bs.length ≤ 4096) {a : Nat}
    (ha : a < k ∨ k + bs.length ≤ a) : (m.writeBytes k bs).read a = m.read a := by
  rw [read_writeBytes hm hk]
  split_ifs with hle
  · have hpast : bs.length ≤ a - k := by omega
    rw [List.getElem?_eq_none hpast, Option.getD_none]
  · rfl

/-- Settles O9: the step runs the word `fetchWord_withFetchWord` reads back, and `read_outside_writeBytes` is every other byte
(R52, R93). -/
theorem stepRunsThePlacedWord : Obligations.StepRunsThePlacedWord := by
  unfold Obligations.StepRunsThePlacedWord
  intro s nbits w hm hr hpc
  have hf : s.canFetch = true := (canFetch_iff s).2 hpc
  refine ⟨?runs, fun a h0 h1 => ?otherBytes⟩
  case runs =>
    rw [step_of_canFetch (s := s.withFetchWord nbits w) hr hf, fetchWord_withFetchWord hm hf]
    rfl
  case otherBytes =>
    have hfits : s.pc.toNat + [highByte (tableWord nbits w), lowByte (tableWord nbits w)].length ≤ 4096 :=
      Nat.add_le_add_right hpc 2
    exact read_outside_writeBytes hm hfits (show a < s.pc.toNat ∨ s.pc.toNat + 2 ≤ a by omega)

/-- Settles O13: `step_of_halted` and `step_of_stopped` (R99). -/
theorem haltedFaultsAndStoppedIsRefused : Obligations.HaltedFaultsAndStoppedIsRefused := by
  unfold Obligations.HaltedFaultsAndStoppedIsRefused
  exact fun s => ⟨fun k p a h => step_of_halted h, step_of_stopped⟩

/-- Settles O29: `exec_drw_of_pastEnd`, where the FATAL condition is taken at `pc0`, the entry's pc less 2 (R100, R136). -/
theorem failedDrwDiscardsTheAdvance : Obligations.FailedDrwDiscardsTheAdvance := by
  unfold Obligations.FailedDrwDiscardsTheAdvance
  exact fun x y n s h => exec_drw_of_pastEnd h x y

/-- Two states that agree in memory, I, display and the two origins draw the same canvas (R131, R134). -/
theorem drawn_congr {s u : State} {x y : Reg} (hm : u.mem = s.mem) (hi : u.i = s.i) (hd : u.display = s.display)
    (hx : u.originColumn x = s.originColumn x) (hy : u.originRow y = s.originRow y) (n : BitVec 4) :
    u.drawn x y n = s.drawn x y n := by
  simp only [State.drawn, hm, hi, hd, hx, hy]

/-- Settles O31: the canvas is the same (`drawn_congr`), and a completed draw takes the display and VF from it (R131). -/
theorem drwOriginCountsModuloTheScreen : Obligations.DrwOriginCountsModuloTheScreen := by
  unfold Obligations.DrwOriginCountsModuloTheScreen
  intro x y n s u hm hi hd hx hy hin
  have hin' : ¬ SpritePastEnd u n.toNat := by rwa [SpritePastEnd, hi]
  have hcanvas : u.drawn x y n = s.drawn x y n := drawn_congr hm hi hd hx hy n
  refine ⟨_, _, exec_drw_of_not_pastEnd hin x y, exec_drw_of_not_pastEnd hin' x y, ?display, ?flag⟩
  case display => exact congrArg Canvas.display hcanvas
  case flag => rw [afterDraw_readFlag, afterDraw_readFlag, hcanvas]

/-! ### Running off the end of memory (R112, R184) -/

/-- A run whose first step answers `s'` goes on from there. -/
theorem run_succ_of_step {M : Host.Core} {s s' : M.State} (h : M.step s = .next s') (k : Nat) :
    M.run (k + 1) s = M.run k s' := by
  rw [Host.Core.run, h]

/-- The step after a run that ends in `t` is a step of `t`. -/
theorem run_succ_of_run {M : Host.Core} {k : Nat} {s t : M.State} (h : M.run k s = .next t) :
    M.run (k + 1) s = M.step t := by
  induction k generalizing s with
  | zero =>
    cases h
    rw [Host.Core.run]
    cases M.step t <;> rfl
  | succ k ih =>
    cases hs : M.step s with
    | next s' =>
      rw [run_succ_of_step hs] at h ⊢
      exact ih h
    | fault r => rw [Host.Core.run, hs] at h; cases h
    | refused r => rw [Host.Core.run, hs] at h; cases h

/-- Two zero bytes are an UNHANDLED word, so their cycle is the advance alone (R97). -/
theorem step_of_zero_bytes {s : State} (hr : s.status = .running) (hpc : s.pc.toNat ≤ 4094)
    (h0 : s.readByte s.pc.toNat = 0) (h1 : s.readByte (s.pc.toNat + 1) = 0) : step s = .next s.advance := by
  have hword : s.fetchWord = 0 := by rw [State.fetchWord, h0, h1]; rfl
  have hzero : decode 0 = .unhandled 0 := by decide
  rw [step_of_canFetch hr ((canFetch_iff s).2 hpc), hword, hzero, exec_unhandled]

/-- Over zero bytes, cycles change pc alone as long as they stay inside memory. -/
theorem run_over_zero_bytes {s : State} {k : Nat} (hr : s.status = .running)
    (hzero : ∀ a : Nat, s.pc.toNat ≤ a → a ≤ 4095 → s.readByte a = 0) (hend : s.pc.toNat + 2 * k ≤ 4096) :
    core.run k s = .next { s with pc := s.pc + BitVec.ofNat 16 (2 * k) } := by
  induction k generalizing s with
  | zero => simp [Host.Core.run]
  | succ k ih =>
    have hpc : s.pc.toNat ≤ 4094 := by omega
    have hstep : core.step s = .next s.advance :=
      step_of_zero_bytes hr hpc (hzero _ (by omega) (by omega)) (hzero _ (by omega) (by omega))
    have hadv : s.advance.pc.toNat = s.pc.toNat + 2 := advance_pc_toNat ((canFetch_iff s).2 hpc)
    have hrest := ih (s := s.advance) hr (fun a ha => hzero a (by omega)) (by omega)
    have hsum : s.advance.pc + BitVec.ofNat 16 (2 * k) = s.pc + BitVec.ofNat 16 (2 * (k + 1)) := by
      rw [advance_pc, BitVec.add_assoc, Nat.mul_succ, Nat.add_comm (2 * k), BitVec.ofNat_add]
      rfl
    rw [hsum] at hrest
    exact (run_succ_of_step hstep k).trans hrest

/-- Settles O17: the run over the zero bytes is `run_over_zero_bytes`, and its last pc is past the last fetch (R112, R184). -/
theorem zeroMemoryRunsOffTheEnd : Obligations.ZeroMemoryRunsOffTheEnd := by
  unfold Obligations.ZeroMemoryRunsOffTheEnd
  intro s k hr hzero hend
  have hrun := run_over_zero_bytes (k := k) hr hzero (by omega)
  have hpc : (s.pc + BitVec.ofNat 16 (2 * k)).toNat = s.pc.toNat + 2 * k := by
    rw [BitVec.toNat_add, BitVec.toNat_ofNat]
    omega
  have hhalt := step_of_pc_past_end (s := { s with pc := s.pc + BitVec.ofNat 16 (2 * k) }) hr (by rw [hpc]; omega)
  rw [hpc] at hhalt
  exact ⟨hrun, (run_succ_of_run hrun).trans hhalt⟩

end Sys2Proof.Machine
end

section
/-! The engine and its host together (spec/60_exceptions.md, spec/70_reset_and_hazards.md): what every move keeps, the
reachable systems, the launch image, and the report log. -/

namespace Sys2Proof.Machine

/-! ### The frame of the host's actions (R169 to R173) -/

/-- Acknowledge, tick, key and stop write none of memory, pc, I and the stack, and the status at most becomes STOPPED. -/
theorem hostAction_frame {p : Config.Params} {m : Move} {σ τ : System} (h : σ.move p m = some τ)
    (hc : m ≠ .cycle) (hr : m ≠ .reset) (hl : ∀ image, m ≠ .loadImage image) :
    τ.core.mem = σ.core.mem ∧ τ.core.pc = σ.core.pc ∧ τ.core.i = σ.core.i ∧ τ.core.stack = σ.core.stack ∧
      τ.core.sp = σ.core.sp ∧ (τ.core.status = σ.core.status ∨ τ.core.status = .stopped) := by
  obtain ⟨-, -, e | e | e | ⟨k, v, e⟩ | e⟩ := hostAction_cases h hc hr hl
  · rw [e]; exact ⟨rfl, rfl, rfl, rfl, rfl, .inl rfl⟩
  · rw [e]; exact ⟨rfl, rfl, rfl, rfl, rfl, .inl rfl⟩
  · rw [e]; exact ⟨rfl, rfl, rfl, rfl, rfl, .inl rfl⟩
  · rw [e]; exact ⟨rfl, rfl, rfl, rfl, rfl, .inl rfl⟩
  · obtain ⟨-, hstop⟩ | ⟨-, hstop⟩ := stopAction_cases σ.core
    · rw [e, hstop]; exact ⟨rfl, rfl, rfl, rfl, rfl, .inr rfl⟩
    · rw [e, hstop]; exact ⟨rfl, rfl, rfl, rfl, rfl, .inl rfl⟩

/-! ### The invariant of the core under every move -/

theorem recordOk_of_stopped {s : State} (h : s.status = .stopped) : s.recordOk := by
  simp [State.recordOk, h]

/-- The record's legality depends on the status and pc alone (R153). -/
theorem recordOk_congr {s t : State} (hstatus : t.status = s.status) (hpc : t.pc = s.pc) : t.recordOk ↔ s.recordOk := by
  simp only [State.recordOk, hstatus, hpc]

/-- Settles O36: a cycle is `everyStepKeepsTheInvariant`, a reset leaves the reset state, LoadImage keeps canonical memory,
and the other actions have `hostAction_frame` (R165). -/
theorem everyMoveKeepsTheInvariant : Obligations.EveryMoveKeepsTheInvariant := by
  unfold Obligations.EveryMoveKeepsTheInvariant
  intro p m σ τ hσ h
  rcases move_cases h with ⟨-, -, -, hstep, -⟩ | ⟨-, -, e, -⟩ | ⟨image, -, -, hload⟩ | ⟨hc, hr, hl, -⟩
  case inl => exact everyStepKeepsTheInvariant _ _ hσ hstep
  case inr.inl =>
    rw [e]
    exact resetMeetsTheInvariant
  case inr.inr.inl =>
    obtain ⟨-, -, e⟩ | ⟨-, -, e⟩ := hload
    · rw [e]
      exact { hσ with memWf := writeBytes_wf hσ.memWf _ _ }
    · rwa [e]
  case inr.inr.inr =>
    obtain ⟨hmem, hpc, hi, -, -, hstatus⟩ := hostAction_frame h hc hr hl
    refine ⟨hmem ▸ hσ.memWf, hpc ▸ hσ.pcRange, hi ▸ hσ.indexRange, ?record⟩
    case record =>
      obtain hsame | hstopped := hstatus
      · exact (recordOk_congr hsame hpc).2 hσ.record
      · exact recordOk_of_stopped hstopped

/-! ### The invariant of the system -/

/-- A system whose core is the reset state meets the invariant in every phase (R41, R182). -/
theorem system_inv_of_reset_core {σ : System} (h : σ.core = State.reset) : σ.Inv := by
  obtain ⟨phase, core, reports⟩ := σ
  obtain rfl : core = State.reset := h
  exact ⟨resetMeetsTheInvariant, rfl, Vector.get_replicate 16 0, fun _ _ => rfl, fun _ _ => rfl⟩

/-- Settles O53: boot's core is the reset state. -/
theorem bootMeetsTheSystemInvariant : Obligations.BootMeetsTheSystemInvariant := by
  unfold Obligations.BootMeetsTheSystemInvariant
  exact system_inv_of_reset_core rfl

theorem readByte_congr {s t : State} (h : t.mem = s.mem) (a : Nat) : t.readByte a = s.readByte a :=
  congrArg (Memory.read · a) h

/-- A move that keeps memory, the stack and SP, and keeps the phase or leaves the system launched, keeps what the system's
invariant says beside the core's. -/
theorem system_inv_of_frame {σ τ : System} (hσ : σ.Inv) (hcore : τ.core.Inv) (hmem : τ.core.mem = σ.core.mem)
    (hstack : τ.core.stack = σ.core.stack) (hsp : τ.core.sp = σ.core.sp)
    (hphase : τ.phase ≠ .launched → σ.phase ≠ .launched) : τ.Inv where
  core := hcore
  spZero := hsp.trans hσ.spZero
  stackZero := by rw [hstack]; exact hσ.stackZero
  reservedZero a ha := (readByte_congr hmem a).trans (hσ.reservedZero a ha)
  unloaded h a := (readByte_congr hmem a).trans (hσ.unloaded (hphase h) a)

/-- Settles O54: a cycle and the host's actions keep memory and the stack, reset starts anew, and LoadImage writes from 0x200
on and launches the system, or is refused and writes nothing (R30, R51, R168). -/
theorem everyMoveKeepsTheSystemInvariant : Obligations.EveryMoveKeepsTheSystemInvariant := by
  unfold Obligations.EveryMoveKeepsTheSystemInvariant
  intro p m σ τ hσ h
  have hcore : τ.core.Inv := everyMoveKeepsTheInvariant p m σ τ hσ.core h
  rcases move_cases h with ⟨-, -, hlaunched, hstep, -⟩ | ⟨-, -, e, -⟩ | ⟨image, -, hfresh, hload⟩ |
    ⟨hc, hr, hl, hphase, -⟩
  case inl =>
    obtain ⟨hstack, hsp, -⟩ := step_keeps_peripherals hstep
    exact system_inv_of_frame hσ hcore (step_keeps_mem hstep) hstack hsp fun hne => absurd hlaunched hne
  case inr.inl => exact system_inv_of_reset_core e
  case inr.inr.inl =>
    obtain ⟨-, hlaunched, e⟩ | ⟨-, -, e⟩ := hload
    · refine ⟨hcore, ?sp, ?stack, ?reserved, fun hne => absurd hlaunched hne⟩
      case sp => rw [e]; exact hσ.spZero
      case stack => rw [e]; exact hσ.stackZero
      case reserved =>
        intro a ha
        rw [e]
        exact (read_outside_loaded_image hσ.core.memWf image (.inl ha)).trans (hσ.reservedZero a ha)
    · exact system_inv_of_frame hσ hcore (by rw [e]) (by rw [e]) (by rw [e]) fun _ => by simp [hfresh]
  case inr.inr.inr =>
    obtain ⟨hmem, -, -, hstack, hsp, -⟩ := hostAction_frame h hc hr hl
    exact system_inv_of_frame hσ hcore hmem hstack hsp fun hne => hphase ▸ hne

/-! ### Reachable systems -/

/-- The invariant holds at boot and every move keeps it, so it holds of every reachable system. -/
theorem system_inv_of_reachable {p : Config.Params} {σ : System} (h : Reachable p σ) : σ.Inv := by
  induction h with
  | boot => exact bootMeetsTheSystemInvariant
  | move m _ hmove ih => exact everyMoveKeepsTheSystemInvariant p m _ _ ih hmove

/-- A legal record's offending address is pc0 or 0x1000, so it has 16 bits (R38, R92, R136). -/
theorem addr_lt_of_recordOk {s : State} {k : FatalKind} {q : Word} {a : Nat} (h : s.recordOk)
    (hs : s.status = .halted k q a) : a < 2 ^ 16 := by
  rw [State.recordOk, hs] at h
  cases k with
  | fetchOutOfBounds =>
    obtain ⟨-, -, rfl⟩ := h
    exact q.isLt
  | spriteOutOfBounds =>
    obtain ⟨-, -, rfl⟩ := h
    decide
  | stackOverflow => exact h.elim
  | stackUnderflow => exact h.elim

/-- Settles O37: the ranges are part of the system's invariant (`system_inv_of_reachable`), and the legal record bounds its
address (R28, R29, R30, R38, R51). -/
theorem reachableStatesKeepTheirRanges : Obligations.ReachableStatesKeepTheirRanges := by
  unfold Obligations.ReachableStatesKeepTheirRanges
  intro p σ h
  have hσ := system_inv_of_reachable h
  exact ⟨hσ.core.pcRange, hσ.core.indexRange, hσ.spZero, hσ.stackZero, hσ.reservedZero,
    fun k q a => addr_lt_of_recordOk hσ.core.record⟩

/-! ### Reset (R41, R166, R181) -/

/-- Settles O33: the reset state's fields are constants, the reset move writes it in every system, and
`move_keeps_status_of_not_running` leaves reset as the only recovery (R41, R166, R181). -/
theorem resetZeroesEveryField : Obligations.ResetZeroesEveryField := by
  unfold Obligations.ResetZeroesEveryField
  refine ⟨?fields, fun s => rfl, fun p σ => rfl, fun p m σ τ hs h hrun => ?recovery⟩
  case fields =>
    exact ⟨fun _ => rfl, Vector.get_replicate 16 0, rfl, rfl, Vector.get_replicate 16 0, rfl, rfl, rfl,
      Vector.get_replicate 16 false, pixel_blank, rfl, rfl⟩
  case recovery =>
    by_contra hm
    exact hs ((move_keeps_status_of_not_running hm h hs).symm.trans hrun)

/-! ### The launch image (R62, R168, R183) -/

/-- Over a blank memory LoadImage leaves the launch image (R183). -/
theorem read_loaded_blank {m : Memory} (hm : m.wf) (hblank : ∀ a : Nat, m.read a = 0) (b : List Byte) (a : Nat) :
    (m.writeBytes 0x200 (b.take 3584)).read a = launchByte b a := by
  unfold launchByte
  split_ifs with ha
  · have hread := read_loaded_image hm b (j := a - 0x200) (by omega)
    rw [hread, Option.getD_some, Nat.add_sub_cancel' ha.1]
  · rw [read_outside_loaded_image hm b (by omega), hblank]

/-- No move but a reset or a load writes memory (R62). -/
theorem move_keeps_mem {p : Config.Params} {m : Move} {σ τ : System} (h : σ.move p m = some τ) (hr : m ≠ .reset)
    (hl : ∀ image, m ≠ .loadImage image) : τ.core.mem = σ.core.mem := by
  by_cases hc : m = .cycle
  · subst hc
    obtain ⟨-, -, hstep, -⟩ := cycle_cases h
    exact step_keeps_mem hstep
  · exact (hostAction_frame h hc hr hl).1

/-- An enabled LoadImage of an accepted image launches a fresh system with the image over its memory (R168). -/
theorem load_of_accepted {p : Config.Params} {image : List Byte} {σ τ : System} (ha : Accepted p image)
    (h : σ.move p (.loadImage image) = some τ) :
    σ.phase = .fresh ∧ τ.phase = .launched ∧ τ.core.mem = σ.core.mem.writeBytes 0x200 (image.take 3584) := by
  obtain ⟨hfresh, ⟨-, hphase, hcore⟩ | ⟨hrefused, -⟩⟩ := load_cases h
  · exact ⟨hfresh, hphase, by rw [hcore]⟩
  · exact absurd ha hrefused

/-- A system right after a reset is fresh and its core is the reset state (R166, R182). -/
theorem afterReset_cases {p : Config.Params} {ρ : System} (h : AfterReset p ρ) :
    ρ.phase = .fresh ∧ ρ.core = State.reset := by
  obtain rfl | ⟨σ, hσ⟩ := h
  · exact ⟨rfl, rfl⟩
  · cases hσ
    exact ⟨rfl, rfl⟩

/-- After the load of an accepted image, with host actions before it and anything but a reset after it, memory is the launch
image: before the load it is blank, and from the load on nothing writes it (R62, R168, R183). -/
theorem read_after_load {p : Config.Params} {image : List Byte} {before ms : List Move} {ρ τ : System}
    (hρ : AfterReset p ρ) (ha : Accepted p image) (hbefore : .reset ∉ before) (hms : .reset ∉ ms)
    (h : ρ.run p (before ++ .loadImage image :: ms) = some τ) (a : Nat) : τ.core.readByte a = launchByte image a := by
  obtain ⟨σ, hσ, h⟩ := run_append.1 h
  obtain ⟨σ', hload, h⟩ := run_cons h
  obtain ⟨hfresh, hlaunched, hmem⟩ := load_of_accepted ha hload
  have hinv : σ.Inv := run_preserves (fun _ hmove hP => everyMoveKeepsTheSystemInvariant p _ _ _ hP hmove) hbefore hσ
    (system_inv_of_reset_core (afterReset_cases hρ).2)
  have hkept : τ.phase = .launched ∧ τ.core.mem = σ'.core.mem :=
    run_preserves (P := fun υ => υ.phase = .launched ∧ υ.core.mem = σ'.core.mem)
      (fun hm hmove ⟨hphase, hsame⟩ => (move_keeps_launched_mem hm hmove hphase).imp_right (·.trans hsame)) hms h
      ⟨hlaunched, rfl⟩
  rw [State.readByte, hkept.2, hmem]
  exact read_loaded_blank hinv.core.memWf (hinv.unloaded (by simp [hfresh])) image a

/-- Every reachable system came by a schedule without a reset from a system right after one. -/
theorem exists_run_from_reset {p : Config.Params} {σ : System} (h : Reachable p σ) :
    ∃ (ρ : System) (ms : List Move), AfterReset p ρ ∧ .reset ∉ ms ∧ ρ.run p ms = some σ := by
  induction h with
  | boot => exact ⟨System.boot, [], .inl rfl, List.not_mem_nil, rfl⟩
  | @move σ τ m _ hmove ih =>
    by_cases hm : m = .reset
    · subst hm
      exact ⟨τ, [], .inr ⟨σ, hmove⟩, List.not_mem_nil, rfl⟩
    · obtain ⟨ρ, ms, hρ, hms, hrun⟩ := ih
      refine ⟨ρ, ms ++ [m], hρ, ?noReset, run_append.2 ⟨σ, hrun, by simp [System.run, hmove]⟩⟩
      case noReset => simpa [hms] using Ne.symm hm

/-- The one move that launches a system is the load of an accepted image (R168, R182). -/
theorem accepted_load_of_launch {p : Config.Params} {m : Move} {σ τ : System} (h : σ.move p m = some τ)
    (hσ : σ.phase ≠ .launched) (hτ : τ.phase = .launched) : ∃ image, m = .loadImage image ∧ Accepted p image := by
  rcases move_cases h with ⟨-, hlaunched, -⟩ | ⟨-, hfresh, -⟩ | ⟨image, hm, -, hload⟩ | ⟨-, -, -, hphase, -⟩
  case inl => exact absurd hlaunched hσ
  case inr.inl => simp [hfresh] at hτ
  case inr.inr.inl =>
    obtain ⟨ha, -⟩ | ⟨-, hrefused, -⟩ := hload
    · exact ⟨image, hm, ha⟩
    · simp [hrefused] at hτ
  case inr.inr.inr => exact absurd (hphase.symm.trans hτ) hσ

/-- A schedule that launches a system holds the load of an accepted image. -/
theorem exists_load_of_launching_run {p : Config.Params} {ms : List Move} {σ τ : System} (h : σ.run p ms = some τ)
    (hσ : σ.phase ≠ .launched) (hτ : τ.phase = .launched) :
    ∃ (image : List Byte) (before after : List Move), ms = before ++ .loadImage image :: after ∧ Accepted p image := by
  induction ms generalizing σ with
  | nil => cases h; exact absurd hτ hσ
  | cons m ms ih =>
    obtain ⟨ρ, hmove, h⟩ := run_cons h
    by_cases hρ : ρ.phase = .launched
    · obtain ⟨image, rfl, ha⟩ := accepted_load_of_launch hmove hσ hρ
      exact ⟨image, [], ms, rfl, ha⟩
    · obtain ⟨image, before, after, rfl, ha⟩ := ih h hρ
      exact ⟨image, m :: before, after, rfl, ha⟩

/-- Settles O38: `move_keeps_mem` and `run_from_cycle_keeps_launched_mem` say what writes memory, `read_after_load` what it
then holds, and the schedule from the last reset to a system that may cycle holds an accepted load
(`exists_load_of_launching_run`) (R62, R168, R183). -/
theorem runsReadTheLaunchImage : Obligations.RunsReadTheLaunchImage := by
  unfold Obligations.RunsReadTheLaunchImage
  refine ⟨fun p m σ τ h hr hl a => ?oneMove, fun p ms σ τ h hms => ?afterCycle, fun p image ms τ ha hms h => ?fromBoot,
    fun p image before ms ρ τ hρ ha hbefore hms h => read_after_load hρ ha hbefore hms h, fun p σ τ hσ h => ?byLoad⟩
  case oneMove => exact readByte_congr (move_keeps_mem h hr hl) a
  case afterCycle =>
    obtain ⟨hphase, hmem⟩ := run_from_cycle_keeps_launched_mem h hms
    exact ⟨readByte_congr hmem, load_eq_none_of_not_fresh (by simp [hphase]) p⟩
  case fromBoot => exact read_after_load (before := []) (.inl rfl) ha List.not_mem_nil hms h
  case byLoad =>
    obtain ⟨ρ, schedule, hρ, hnoReset, hrun⟩ := exists_run_from_reset hσ
    obtain ⟨image, before, after, rfl, ha⟩ := exists_load_of_launching_run hrun
      (by simp [(afterReset_cases hρ).1]) (cycle_cases h).1
    simp only [List.mem_append, List.mem_cons, not_or] at hnoReset
    obtain ⟨hbefore, -, hafter⟩ := hnoReset
    exact ⟨image, before, after, ρ, hρ, ha, hbefore, hafter, hrun⟩

/-- Settles O45: LoadImage on the reset state is the case split of `loadImage_cases`, and over the blank memory it leaves the
launch bytes (R183). -/
theorem launchStateIsResetWithTheImage : Obligations.LaunchStateIsResetWithTheImage := by
  unfold Obligations.LaunchStateIsResetWithTheImage
  intro p b
  obtain ⟨hlong, hfail, hload⟩ | ⟨hfits, hload⟩ := loadImage_cases p.loadPolicy b State.reset
  · refine ⟨fun _ => ⟨by rw [launchState, hload], ⟨.notLaunched, State.reset, []⟩, ?refused, rfl, rfl⟩,
      fun hfits => absurd ⟨hlong, hfail⟩ hfits⟩
    case refused => simp only [System.move, System.load, System.boot, hload]
  · refine ⟨fun hlarge => absurd hlarge hfits, fun _ =>
      ⟨{ State.reset with mem := State.reset.mem.writeBytes 0x200 (b.take 3584) }, by rw [launchState, hload], ?loaded, rfl,
        read_loaded_blank resetMeetsTheInvariant.memWf (fun _ => rfl) b⟩⟩
    case loaded => simp only [System.move, System.load, System.boot, hload]

/-! ### The report log and the outputs (R97, R165, R169, R174, R175) -/

/-- Settles O46: `cycle_cases` appends the cycle's report, and `cycleReport_eq_some_iff` says which cycles have one (R97). -/
theorem everyUnhandledCycleIsLogged : Obligations.EveryUnhandledCycleIsLogged := by
  unfold Obligations.EveryUnhandledCycleIsLogged
  intro p σ τ h
  obtain ⟨-, -, hstep, hreports⟩ := cycle_cases h
  refine ⟨fun w hpc hd => ?logged, fun hno => ?silent⟩
  case logged =>
    have hreport : cycleReport σ.core = some ⟨σ.core.pc, w⟩ :=
      (cycleReport_eq_some_iff _ _).2 ⟨(step_cases hstep).1, hpc, hd, rfl⟩
    rw [hreports, hreport]
    rfl
  case silent =>
    have hreport : cycleReport σ.core = none := by
      refine Option.eq_none_iff_forall_ne_some.2 fun e he => ?_
      obtain ⟨-, hpc, hd, -⟩ := (cycleReport_eq_some_iff _ _).1 he
      exact hno.elim (fun hpast => by omega) (fun hhandled => hhandled e.word hd)
    rw [hreports, hreport]
    exact List.append_nil _

/-- Settles O43: the action and the move are by definition the write of `dirty` (R170). -/
theorem ackDisplayClearsDirtyOnly : Obligations.AckDisplayClearsDirtyOnly := by
  unfold Obligations.AckDisplayClearsDirtyOnly
  exact ⟨fun s => rfl, fun p σ => rfl⟩

/-- Settles O47: the read move is the identity, and the sound output is the test of ST against 0 (R169, R174, R175). -/
theorem hostReadsChangeNothing : Obligations.HostReadsChangeNothing := by
  unfold Obligations.HostReadsChangeNothing
  exact ⟨fun p σ => rfl, fun s => ⟨rfl, bne_iff_ne, rfl⟩⟩

end Sys2Proof.Machine
end

section
/-! Isolation (spec/10_state.md R30, R33, R34): the timers, the latches and the stack do not influence a cycle. -/

namespace Sys2Proof.Machine

section Peripherals

variable (s : State) (dt st : Byte) (keys : Vector Bool 16) (stack : Vector Word 16) (sp : Fin 17)

/-- No handler reads the timers, the latches or the stack. -/
theorem exec_withPeripherals (i : Instr) :
    exec i (s.withPeripherals dt st keys stack sp) =
      mapNext (fun t => t.withPeripherals dt st keys stack sp) (exec i s) := by
  cases i with
  | drw x y n =>
    by_cases hend : SpritePastEnd s n.toNat
    · rw [exec_drw_of_pastEnd hend, exec_drw_of_pastEnd (s := s.withPeripherals dt st keys stack sp) hend]
      rfl
    · rw [exec_drw_of_not_pastEnd hend, exec_drw_of_not_pastEnd (s := s.withPeripherals dt st keys stack sp) hend]
      rfl
  | cls => rfl
  | jp nnn => rfl
  | ld x nn => rfl
  | add x nn => rfl
  | ldi nnn => rfl
  | unhandled w => rfl

/-- A step is blind to the timers, the latches and the stack, because the status, the fetch and every handler are. -/
theorem step_withPeripherals :
    step (s.withPeripherals dt st keys stack sp) =
      mapNext (fun t => t.withPeripherals dt st keys stack sp) (step s) := by
  cases hs : s.status with
  | halted k p a =>
    rw [step_of_halted hs, step_of_halted (s := s.withPeripherals dt st keys stack sp) hs]
    rfl
  | stopped =>
    rw [step_of_stopped hs, step_of_stopped (s := s.withPeripherals dt st keys stack sp) hs]
    rfl
  | running =>
    cases hf : s.canFetch with
    | false =>
      rw [step_of_not_canFetch hs hf, step_of_not_canFetch (s := s.withPeripherals dt st keys stack sp) hs hf]
      rfl
    | true =>
      rw [step_of_canFetch hs hf, step_of_canFetch (s := s.withPeripherals dt st keys stack sp) hs hf]
      exact exec_withPeripherals s.advance dt st keys stack sp (decode s.fetchWord)

/-- A cycle's report depends on the status, pc and memory alone (R97). -/
theorem cycleReport_withPeripherals : cycleReport (s.withPeripherals dt st keys stack sp) = cycleReport s := by
  refine Option.ext fun e => ?_
  rw [cycleReport_eq_some_iff, cycleReport_eq_some_iff]
  rfl

end Peripherals

/-- Settles O48: `step_withPeripherals` and `cycleReport_withPeripherals` (R30, R33, R34). -/
theorem peripheralsDoNotInfluenceACycle : Obligations.PeripheralsDoNotInfluenceACycle := by
  unfold Obligations.PeripheralsDoNotInfluenceACycle
  exact fun s dt st keys stack sp =>
    ⟨step_withPeripherals s dt st keys stack sp, cycleReport_withPeripherals s dt st keys stack sp⟩

/-- Actions that agree on an outcome's next state map it alike. -/
theorem mapNext_congr {f g : State → State} {o : Host.Outcome State Fault Refusal} (h : ∀ t, o = .next t → f t = g t) :
    mapNext f o = mapNext g o := by
  cases o with
  | next t => exact congrArg Host.Outcome.next (h t rfl)
  | fault r => rfl
  | refused r => rfl

/-- An action that only overwrites timers, latches and stack, with values taken from those fields alone, commutes with a step,
because the step keeps them. -/
theorem step_commutes_of_peripherals {f : State → State} {s : State} {dt st : Byte} {keys : Vector Bool 16}
    {stack : Vector Word 16} {sp : Fin 17}
    (hf : ∀ t : State, t.stack = s.stack ∧ t.sp = s.sp ∧ t.dt = s.dt ∧ t.st = s.st ∧ t.keys = s.keys →
      f t = t.withPeripherals dt st keys stack sp) :
    step (f s) = mapNext f (step s) :=
  calc step (f s)
    _ = step (s.withPeripherals dt st keys stack sp) := by rw [hf s ⟨rfl, rfl, rfl, rfl, rfl⟩]
    _ = mapNext (fun t => t.withPeripherals dt st keys stack sp) (step s) := step_withPeripherals s dt st keys stack sp
    _ = mapNext f (step s) := mapNext_congr fun t h => (hf t (step_keeps_peripherals h)).symm

/-- Settles O49: a tick and a key change overwrite timers and latches with values of those fields
(`step_commutes_of_peripherals`) (R34, R172, R177). -/
theorem ticksAndKeysCommuteWithCycles : Obligations.TicksAndKeysCommuteWithCycles := by
  unfold Obligations.TicksAndKeysCommuteWithCycles
  refine fun s => ⟨step_commutes_of_peripherals (dt := countDown s.dt) (st := countDown s.st) (keys := s.keys)
      (stack := s.stack) (sp := s.sp) ?tick,
    fun k v => step_commutes_of_peripherals (dt := s.dt) (st := s.st) (keys := s.keys.set k.val v k.isLt)
      (stack := s.stack) (sp := s.sp) ?key⟩
  case tick =>
    rintro t ⟨hstack, hsp, hdt, hst, hkeys⟩
    rw [← hstack, ← hsp, ← hdt, ← hst, ← hkeys]
    rfl
  case key =>
    rintro t ⟨hstack, hsp, hdt, hst, hkeys⟩
    rw [← hstack, ← hsp, ← hdt, ← hst, ← hkeys]
    rfl

end Sys2Proof.Machine
end

section
/-! The stack primitives (spec/10_state.md R31, R32): their two outcomes, and a pop after a push. -/

namespace Sys2Proof.Machine

/-- The state a push that does not overflow leaves (R31). -/
def State.pushed (s : State) (a : Word) (h : s.sp.val < 16) : State :=
  { s with stack := s.stack.set s.sp.val a h, sp := ⟨s.sp.val + 1, by omega⟩ }

theorem stackPush_of_lt {s : State} (h : s.sp.val < 16) (a : Word) : stackPush a s = .ok (s.pushed a h) := by
  obtain ⟨hfull, -⟩ | ⟨_, hpush⟩ := stackPush_cases a s
  · exact absurd hfull h.ne
  · exact hpush

/-- A push writes entry SP alone. -/
theorem pushed_stack_get (s : State) (a : Word) (h : s.sp.val < 16) (k : Fin 16) :
    (s.pushed a h).stack.get k = if k.val = s.sp.val then a else s.stack.get k := by
  simp only [State.pushed, Vector.get_eq_getElem, Vector.getElem_set, eq_comm (a := k.val)]

/-- A pop with SP = k + 1 returns entry k and leaves SP = k (R32). -/
theorem stackPop_of_sp_eq_succ {s : State} {k : Fin 16} (h : s.sp.val = k.val + 1) :
    stackPop s = .ok ({ s with sp := ⟨k.val, by omega⟩ }, s.stack.get k) := by
  obtain ⟨hempty, -⟩ | ⟨_, -, hpop⟩ := stackPop_cases s
  · omega
  · rw [hpop]
    simp only [h, Nat.add_sub_cancel]
    rfl

/-- Settles O50: `stackPush_cases` on a full stack, and `pushed` otherwise (R31). -/
theorem stackPushWritesTheNextEntry : Obligations.StackPushWritesTheNextEntry := by
  unfold Obligations.StackPushWritesTheNextEntry
  refine fun a s => ⟨fun hfull => (stackPush_eq_error_iff a s _).2 ⟨hfull, rfl⟩, fun hne => ?free⟩
  case free =>
    have hlt : s.sp.val < 16 := by omega
    exact ⟨s.pushed a hlt, stackPush_of_lt hlt a, rfl, pushed_stack_get s a hlt, rfl⟩

/-- Settles O51: `stackPop_eq_error_iff` on an empty stack, and `stackPop_of_sp_eq_succ` otherwise (R32). -/
theorem stackPopReturnsTheNewestEntry : Obligations.StackPopReturnsTheNewestEntry := by
  unfold Obligations.StackPopReturnsTheNewestEntry
  exact fun s => ⟨fun hempty => (stackPop_eq_error_iff s _).2 ⟨hempty, rfl⟩,
    fun k h => ⟨_, stackPop_of_sp_eq_succ h, rfl, rfl⟩⟩

/-- Settles O52: after the push SP is one above the written entry, so the pop returns that entry and restores SP, and the
entries below it were not written (R31, R32). -/
theorem popAfterPushReturnsThePushed : Obligations.PopAfterPushReturnsThePushed := by
  unfold Obligations.PopAfterPushReturnsThePushed
  intro a s h
  have hpop := stackPop_of_sp_eq_succ (s := s.pushed a h) (k := ⟨s.sp.val, h⟩) rfl
  rw [pushed_stack_get, if_pos rfl] at hpop
  refine ⟨_, _, stackPush_of_lt h a, hpop, rfl, fun k hk => ?_, rfl⟩
  exact (pushed_stack_get s a h k).trans (if_neg hk.ne)

end Sys2Proof.Machine
end
